-- ==== Sys2Proof/Word.lean ====
section
/-! DEFINITION. The word types: a byte of image memory (one packed pixel, R63) and a 32-bit register word (R15). -/

namespace Sys2Proof

/-- One byte: the unit of image memory and of the memory port (R31, R36). -/
abbrev Byte := BitVec 8

/-- One 32-bit word of the register port (R15). -/
abbrev Word := BitVec 32

end Sys2Proof
end

