-- ==== Sys2Proof/Config.lean ====
section
/-! DEFINITION. What a build fixes: the parameters of R8 with a stated value, the record of the OPEN ones, and the
free values, which nothing in Lean can evaluate. -/

namespace Sys2Proof

/-- A run of consecutive image-memory addresses `base, …, base + size - 1`. -/
structure Region where
  base : Nat
  size : Nat
deriving DecidableEq, Repr

/-- `BW_CMP` (R8, R73): the strict comparison, or the named variant that counts equality as white (log 13). -/
inductive BwCmp where
  | gt
  | ge
deriving DecidableEq, Repr

/-- `REG_BYTE_ORDER` (R15, R34): the byte order of a register word on the host's byte-addressed bus (log 20). -/
inductive ByteOrder where
  | little
  | big
deriving DecidableEq, Repr

/-- The OPEN parameters of R8 and R15, constant for a build (R25), and the side-effect devices R38 speaks of.
`memOK` lists the addresses that answer (R36), as regions; `devices` lists the memory with side effects (R101). -/
structure Build where
  width        : Nat
  height       : Nat
  addrBits     : Nat
  engineBase   : Nat
  regByteOrder : ByteOrder
  bwCmp        : BwCmp
  memOK        : List Region
  devices      : List Region
deriving DecidableEq, Repr

namespace Build

/-- `N = W * H`, the pixels of an image (R8). -/
def pixels (b : Build) : Nat := b.width * b.height

/-- `2^AW`, the bytes of image memory (R31). -/
def space (b : Build) : Nat := 2 ^ b.addrBits

end Build

namespace Config

/-- The build `State.reset` carries. DESIGN CHOICE (log 1): the spec leaves these values OPEN; W, H, AW and MemOK are those of
the programs of 95_test_vectors.md section 3. Claims quantify over every build instead. -/
def exampleBuild : Build where
  width        := 2
  height       := 2
  addrBits     := 16
  engineBase   := 0
  regByteOrder := .little
  bwCmp        := .gt
  memOK        := [⟨0, 0x10000⟩]
  devices      := []

/-- Channel widths and positions (R8, R63): red `p[7:5]`, green `p[4:2]`, blue `p[1:0]`. -/
def rbits : Nat := 3
def gbits : Nat := 3
def bbits : Nat := 2
def rpos : Nat := 5
def gpos : Nat := 2
def bpos : Nat := 0

/-- Channel maxima `2^bits - 1` (R8): 7, 7, 3. -/
def maxR : Nat := 2 ^ rbits - 1
def maxG : Nat := 2 ^ gbits - 1
def maxB : Nat := 2 ^ bbits - 1

/-- `SOBEL_SHIFT` (R8): divide by 8. -/
def sobelShift : Nat := 3

/-- FREE VALUE (log 5). The byte the engine writes for an output pixel whose reads include a source byte that another agent
wrote while the command ran (R100: any value), indexed by the count of pixel steps and resets. -/
opaque freeByte : Nat → Byte

/-- FREE VALUE (log 7). Whether, in this pixel step, the engine also reads a source byte it need not read (R59 leaves that
free) and that byte does not answer (R36). -/
opaque extraReadStalls : Nat → Bool

end Config
end Sys2Proof
end

