-- ==== Sys2Proof/Syntax.lean ====
section
/-! DEFINITION. The commands of IFE-1, one constructor per row of spec/opcode_table.json (R50). -/

namespace Sys2Proof

/-- A command word's meaning (R48, R51): the mnemonic, `NULLDST` (bit 8) and `THRESH` (bits 23:16). Every command carries
`THRESH`: a non-zero value in the word of a command other than BW is legal, has no effect, and reads back in `CMD` (R49, R17). -/
inductive Instr where
  | invb  (nulldst : Bool) (thresh : Byte)   -- R70
  | invc  (nulldst : Bool) (thresh : Byte)   -- R71
  | bw    (nulldst : Bool) (thresh : Byte)   -- R73
  | mirr  (nulldst : Bool) (thresh : Byte)   -- R74
  | blur  (nulldst : Bool) (thresh : Byte)   -- R78
  | sharp (nulldst : Bool) (thresh : Byte)   -- R79
  | sobel (nulldst : Bool) (thresh : Byte)   -- R80
  | gray  (nulldst : Bool) (thresh : Byte)   -- R75
deriving DecidableEq, Repr

end Sys2Proof
end

