-- ==== Sys2Proof/WellFormed.lean ====
section
/-! DEFINITION. What must hold of a build (R8) and of an access to the register port (R15). A term of `Instr` needs no
check: its operands are one bit and eight bits, and each of the 8 × 2 × 256 words they name is legal (R49, R51). -/

namespace Sys2Proof

/-- R8: `1 <= W <= 65535`, `1 <= H <= 65535`, `1 <= AW <= 32`, `N <= 2^AW`. -/
abbrev Build.wf (b : Build) : Prop :=
  (1 ≤ b.width ∧ b.width ≤ 65535) ∧ (1 ≤ b.height ∧ b.height ≤ 65535) ∧
    (1 ≤ b.addrBits ∧ b.addrBits ≤ 32) ∧ b.pixels ≤ b.space

/-- A host access to the register window, by byte offset and size in bytes. -/
structure RegAccess where
  off  : Nat
  size : Nat
deriving DecidableEq, Repr

/-- R15: only an aligned access of one 32-bit word, inside the 64 bytes of the window, is defined. -/
abbrev RegAccess.wf (a : RegAccess) : Prop := a.off < 64 ∧ a.off % 4 = 0 ∧ a.size = 4

end Sys2Proof
end

