-- ==== Sys2Proof/Decode.lean ====
section
/-! DEFINITION. The command codes (R50), the decoding of a command word (R51, R52), and after it the encoding (R48). -/

namespace Sys2Proof

/-- The eight commands by name, without operands: what `lat_op` selects while a command runs (R28, R59). -/
inductive Op where
  | invb | invc | bw | mirr | blur | sharp | sobel | gray
deriving DecidableEq, Repr

/-- The refusals of a `CMD` write (R82). -/
inductive ErrCode where
  | busy        -- ERR_BUSY
  | reserved    -- ERR_RESERVED
  | illegalOp   -- ERR_ILLEGAL_OP
  | range       -- ERR_RANGE
  | overlap     -- ERR_OVERLAP
deriving DecidableEq, Repr

/-- The three outcomes of decoding a word (R51), two of them one constructor with its code. -/
inductive Decoded where
  | command (i : Instr)
  | refused (e : ErrCode)
deriving DecidableEq, Repr

/-- `OP` of each mnemonic (R50). -/
def Op.code : Op → BitVec 4
  | .invb => 0x0#4
  | .invc => 0x1#4
  | .bw => 0x2#4
  | .mirr => 0x3#4
  | .blur => 0x4#4
  | .sharp => 0x5#4
  | .sobel => 0x6#4
  | .gray => 0x7#4

/-- The mnemonic of an `OP` value; none for 0x8 to 0xF (R50, R52). -/
def Op.ofCode (c : BitVec 4) : Option Op :=
  match c.toNat with
  | 0 => some .invb
  | 1 => some .invc
  | 2 => some .bw
  | 3 => some .mirr
  | 4 => some .blur
  | 5 => some .sharp
  | 6 => some .sobel
  | 7 => some .gray
  | _ => none

/-- `POINT = {INVB, INVC, BW, GRAY}` (R50, R56). -/
def Op.isPoint : Op → Bool
  | .invb | .invc | .bw | .gray => true
  | .mirr | .blur | .sharp | .sobel => false

/-- The command of a mnemonic with its operands. -/
def Op.instr (op : Op) (nulldst : Bool) (thresh : Byte) : Instr :=
  match op with
  | .invb => .invb nulldst thresh
  | .invc => .invc nulldst thresh
  | .bw => .bw nulldst thresh
  | .mirr => .mirr nulldst thresh
  | .blur => .blur nulldst thresh
  | .sharp => .sharp nulldst thresh
  | .sobel => .sobel nulldst thresh
  | .gray => .gray nulldst thresh

/-- The mnemonic of a command. -/
def Instr.op : Instr → Op
  | .invb _ _ => .invb
  | .invc _ _ => .invc
  | .bw _ _ => .bw
  | .mirr _ _ => .mirr
  | .blur _ _ => .blur
  | .sharp _ _ => .sharp
  | .sobel _ _ => .sobel
  | .gray _ _ => .gray

/-- `NULLDST` of a command. -/
def Instr.nulldst : Instr → Bool
  | .invb n _ | .invc n _ | .bw n _ | .mirr n _ | .blur n _ | .sharp n _ | .sobel n _ | .gray n _ => n

/-- `THRESH` of a command. -/
def Instr.thresh : Instr → Byte
  | .invb _ t | .invc _ t | .bw _ t | .mirr _ t | .blur _ t | .sharp _ t | .sobel _ t | .gray _ t => t

/-- The bits of a command word that must be 0: 31:24, 15:9 and 7:4 (R52). -/
def reservedMask : Word := 0xFF00FEF0#32

/-- `OP` of a command word: bits 3:0 (R48). -/
def opField (v : Word) : BitVec 4 := v.extractLsb' 0 4

/-- `NULLDST` of a command word: bit 8 (R48, R49). -/
def nulldstField (v : Word) : Bool := v.getLsbD 8

/-- `THRESH` of a command word: bits 23:16 (R48, R49). -/
def threshField (v : Word) : Byte := v.extractLsb' 16 8

/-- R51: the decoding of a `CMD` word, total; the reserved check comes before the opcode check. -/
def decode (v : Word) : Decoded :=
  if v &&& reservedMask ≠ 0#32 then .refused .reserved
  else
    match Op.ofCode (opField v) with
    | none => .refused .illegalOp
    | some op => .command (op.instr (nulldstField v) (threshField v))

/-- R48: `cmdword(OP, NULLDST, THRESH)`. -/
def cmdWord (op : BitVec 4) (nulldst : Bool) (thresh : Byte) : Word :=
  op.setWidth 32 ||| ((BitVec.ofBool nulldst).setWidth 32 <<< 8) ||| (thresh.setWidth 32 <<< 16)

/-- The word of a command (R48). -/
def encode (i : Instr) : Word := cmdWord i.op.code i.nulldst i.thresh

/-- The command the decoder reads from an opcode-table word of `nbits` bits: IFE-1 has one 32-bit word per command, given
whole to the register port (R53), so no byte layout comes in (R34). -/
def decodeTableWord (nbits w : Nat) : Option Instr :=
  match decode (BitVec.ofNat 32 (w % 2 ^ nbits)) with
  | .command i => some i
  | .refused _ => none

end Sys2Proof
end

