-- ==== Sys2Proof/Machine/State.lean ====
section
/-! DEFINITION. The state: the block's registers (R30), image memory (R31), the build (R8), the agents around the block
(R7), and the model's own index of free values. -/

namespace Sys2Proof.Machine

/-- Image memory (R31): (address, byte) pairs, addresses strictly rising, no byte equal to `blank`. -/
abbrev Memory := List Host.Cell

/-- What an address that is not listed reads as. DESIGN CHOICE, unsafe (log 2): the spec gives memory no contents at power-up. -/
def Memory.blank : Byte := 0x00#8

/-- The canonical form: strictly rising addresses, and nothing listed that an unlisted address would read as. -/
abbrev Memory.wf (m : Memory) : Prop :=
  m.Pairwise (fun c d => c.1 < d.1) ∧ ∀ c ∈ m, c.2 ≠ Memory.blank

/-- The registers with a name (R16), for the notation of R54. -/
inductive Reg where
  | cmd | srcBase | dstBase | status | codecPix | codecDec | codecCh | codecEnc | param
deriving DecidableEq, Repr

/-- One operation of the host (R7, R54). -/
inductive HostOp where
  /-- `RegWrite(off, v)`: one aligned word write (R15). -/
  | wr (off : Nat) (v : Word)
  /-- `RegRead(off)`: one aligned word read (R15). -/
  | rd (off : Nat)
  /-- `POLL`: repeat `RegRead(off)` until the `width` bits from bit `lo` up equal `v` (R54). -/
  | poll (off lo width v : Nat)
  /-- A write of bytes at a platform address, the lowest address first (R15, R34, R39; log 11). -/
  | busWr (addr : Nat) (bytes : List Byte)
  /-- A read of `size` bytes at a platform address (R15, R34, R39; log 11). -/
  | busRd (addr size : Nat)
  /-- The host writes one byte of image memory (R31). -/
  | memWr (a : Nat) (v : Byte)
  /-- The host reads one byte of image memory (R31). -/
  | memRd (a : Nat)
deriving DecidableEq, Repr

/-- Whose step comes next (R7, R85). -/
inductive Turn where
  | host
  | engine
  | reset
  /-- Another bus master writes one byte of image memory (R7, R100). -/
  | masterWrite (a : Nat) (v : Byte)
  /-- Another bus master reads one byte of image memory (R7, R100). -/
  | masterRead (a : Nat)
deriving DecidableEq, Repr

/-- Where the machine stops with a fault. Both are raised only by an access of the host or of another bus master, never by
a command: the engine's own unanswered access is no fault but an engine without a step (R36). -/
inductive Fault where
  /-- A host or master memory access at an address `2^AW` or above, which does not exist (R31). Safe: the run ends (log 9). -/
  | addressOutsideSpace
  /-- A host or master memory access outside `MemOK`, which gets no answer (R8, R36). Safe: the run ends (log 9). -/
  | noAnswer
deriving DecidableEq, Repr

/-- What the model refuses. -/
inductive Refusal where
  /-- Raised by `exec` for a command without a meaning yet (there is none). Safe. -/
  | notModelled (mnemonic : String)
  /-- A register access that is not an aligned 32-bit word of the window: "has no defined effect. A model refuses it" (R15).
  Raised by the host's register operations. Safe (log 11). -/
  | registerAccess
  /-- A command whose source or destination region covers memory with side effects: "is outside this spec, and a model
  refuses it" (R101). Raised by a command that passed every check. Safe (log 10). -/
  | deviceRegion
  /-- A host or master access at an address of such a device, whose behaviour the spec does not give (R38, R92). Safe (log 10). -/
  | deviceAccess
deriving DecidableEq, Repr

/-- The complete state of the block (R30). The address registers are AW bits wide and are held in 32, the upper ones 0 (log 14). -/
structure Block where
  cmd       : Word       -- R17
  srcBase   : Word       -- R18
  dstBase   : Word       -- R19
  busy      : Bool       -- R20
  done      : Bool       -- R20
  err       : Bool       -- R20
  errcode   : BitVec 4   -- R20, R82
  codecPix  : Byte       -- R21
  codecR    : Byte       -- R23, RIN
  codecG    : Byte       -- R23, GIN
  codecB    : Byte       -- R23, BIN
  latOp     : BitVec 4   -- R28
  latThresh : Byte       -- R28
  src       : Word       -- R28
  dst       : Word       -- R28
  prog      : Nat        -- R29
deriving DecidableEq, Repr

/-- The other agents (R7): what the host has still to do, the turns to come, and what was read so far, newest first. -/
structure Outside where
  program     : List HostOp
  sched       : List Turn
  words       : List Word   -- what `RD` returned to the host
  bytes       : List Byte   -- what the host's memory reads returned
  masterBytes : List Byte   -- what the other masters' memory reads returned
deriving DecidableEq, Repr

/-- The machine. `dirty` and `tick` are the model's own (log 5): the source addresses another agent has written during
the running command, strictly rising, and the index of the next free value. -/
structure State where
  build   : Build
  blk     : Block
  mem     : Memory
  outside : Outside
  dirty   : List Nat
  tick    : Nat
deriving DecidableEq, Repr

/-- Every field of the block at its reset value (R96). -/
def Block.reset : Block where
  cmd       := 0#32
  srcBase   := 0#32
  dstBase   := 0#32
  busy      := false
  done      := false
  err       := false
  errcode   := 0#4
  codecPix  := 0#8
  codecR    := 0#8
  codecG    := 0#8
  codecB    := 0#8
  latOp     := 0#4
  latThresh := 0#8
  src       := 0#32
  dst       := 0#32
  prog      := 0

/-- Right after power-up, which behaves as reset (R96), on a given build: memory lists nothing (log 2), no host operation
and no turn is pending (log 3, log 4), nothing has been read (log 12), `tick` is 0 (log 5). -/
def State.resetOf (b : Build) : State where
  build   := b
  blk     := Block.reset
  mem     := []
  outside := ⟨[], [], [], [], []⟩
  dirty   := []
  tick    := 0

/-- The machine right after reset, on the build of log 1. -/
def State.reset : State := State.resetOf Config.exampleBuild

end Sys2Proof.Machine
end

