-- ==== Sys2Proof/Machine/Ops.lean ====
section
/-! DEFINITION. The shared operations: one byte of memory (R36, R37), address ranges (R8, R33, R56), the raising of an
error (R83), and the memory accesses of the agents around the block (R7, R100). -/

namespace Sys2Proof.Machine

/-- The byte at an address (R36). -/
def Memory.read : Memory → Nat → Byte
  | [], _ => Memory.blank
  | (k, v) :: m, a => if k = a then v else Memory.read m a

/-- Write one byte (R37), keeping the canonical form. -/
def Memory.write : Memory → Nat → Byte → Memory
  | [], a, v => if v = Memory.blank then [] else [(a, v)]
  | (k, w) :: m, a, v =>
    if a < k then (if v = Memory.blank then (k, w) :: m else (a, v) :: (k, w) :: m)
    else if a = k then (if v = Memory.blank then m else (a, v) :: m)
    else (k, w) :: Memory.write m a v

/-- The address lies in the region. -/
def regionContains (r : Region) (a : Nat) : Bool := decide (r.base ≤ a) && decide (a < r.base + r.size)

/-- The region and `[base, base + n)` share an address. -/
def regionMeets (r : Region) (base n : Nat) : Bool :=
  decide (0 < r.size) && decide (0 < n) && decide (base < r.base + r.size) && decide (r.base < base + n)

/-- The address exists (R31). -/
def inSpace (b : Build) (a : Nat) : Bool := decide (a < b.space)

/-- `MemOK` (R8, R36): the platform memory answers at this address. -/
def answers (b : Build) (a : Nat) : Bool := inSpace b a && b.memOK.any (regionContains · a)

/-- A device with side effects lies at this address (R38). -/
def isDevice (b : Build) (a : Nat) : Bool := b.devices.any (regionContains · a)

/-- `[base, base + n)` covers memory with side effects (R101). -/
def coversDevice (b : Build) (base n : Nat) : Bool := b.devices.any (regionMeets · base n)

/-- The overlap of two regions of `n` bytes (R56 test 5). -/
def regionsOverlap (sb db n : Nat) : Bool := decide (sb < db + n) && decide (db < sb + n)

/-- What an address register of AW bits stores of a 32-bit word: bits `[31:AW]` are RAZ/WI (R18). -/
def truncAddr (b : Build) (v : Word) : Word := BitVec.ofNat 32 (v.toNat % b.space)

/-- The codes held in `ERRCODE` (R82). -/
def errorCode : ErrCode → BitVec 4
  | .busy => 1#4
  | .reserved => 2#4
  | .illegalOp => 3#4
  | .range => 4#4
  | .overlap => 5#4

/-- `raise Error(code)` (R83): the block's one error path. It saves nothing else, changes no mode and goes nowhere (R87),
so there is no return beside it (R88). -/
def raiseError (e : ErrCode) (s : State) : State :=
  { s with blk := { s.blk with err := true, errcode := errorCode e } }

/-- Add an address to a strictly rising list. -/
def insertAddr (a : Nat) : List Nat → List Nat
  | [] => [a]
  | k :: l => if a < k then a :: k :: l else if a = k then k :: l else k :: insertAddr a l

/-- The address lies in the source region `[src, src + N)` of the latched operands (R33). -/
def inSourceRegion (s : State) (a : Nat) : Bool :=
  decide (s.blk.src.toNat ≤ a) && decide (a < s.blk.src.toNat + s.build.pixels)

/-- Another agent's write of one byte lands (R37). A source byte written while `BUSY = 1` is noted: the output bytes that
depend on it and are not yet written become unspecified (R100). -/
def storeFromOutside (a : Nat) (v : Byte) (s : State) : State :=
  { s with
    mem := s.mem.write a v
    dirty := if s.blk.busy && inSourceRegion s a then insertAddr a s.dirty else s.dirty }

/-- Whether an access of the host or another master to image memory goes through to `t` (log 9, log 10). -/
def guardAccess (a : Nat) (s t : State) : Host.Outcome State Fault Refusal :=
  if !inSpace s.build a then .fault .addressOutsideSpace
  else if !answers s.build a then .fault .noAnswer
  else if isDevice s.build a then .refused .deviceAccess
  else .next t

/-- The host's or another master's write of one byte of image memory. -/
def outsideWrite (a : Nat) (v : Byte) (s : State) : Host.Outcome State Fault Refusal :=
  guardAccess a s (storeFromOutside a v s)

/-- The host's read of one byte of image memory. -/
def hostMemRead (a : Nat) (s : State) : Host.Outcome State Fault Refusal :=
  guardAccess a s { s with outside := { s.outside with bytes := s.mem.read a :: s.outside.bytes } }

/-- Another master's read of one byte of image memory. -/
def masterMemRead (a : Nat) (s : State) : Host.Outcome State Fault Refusal :=
  guardAccess a s { s with outside := { s.outside with masterBytes := s.mem.read a :: s.outside.masterBytes } }

/-- The reset input (R96, R97): every register of the block at its reset value; memory, the build and the other agents stay
(log 21). DESIGN CHOICE: the index of free values moves on, so that what comes after draws afresh, among it whether an optional
read stalls the engine (R59, log 7). -/
def resetBlock (s : State) : State := { s with blk := Block.reset, dirty := [], tick := s.tick + 1 }

end Sys2Proof.Machine
end

