-- ==== Sys2Proof/Machine/Flags.lean ====
section
/-! DEFINITION. The flags (R27): the `STATUS` word, its write-one-to-clear, and the setting and clearing of `BUSY`,
`DONE` and `ERR` by commands. No command computes a condition code. -/

namespace Sys2Proof.Machine

/-- The word a read of `STATUS` returns (R20). -/
def statusWord (k : Block) : Word :=
  (BitVec.ofBool k.busy).setWidth 32 ||| ((BitVec.ofBool k.done).setWidth 32 <<< 1) |||
    ((BitVec.ofBool k.err).setWidth 32 <<< 2) ||| (k.errcode.setWidth 32 <<< 4)

/-- A write of `STATUS` (R20): bit 1 clears `DONE`, bit 2 clears `ERR` and `ERRCODE`, every other bit is ignored. -/
def statusWrite (v : Word) (s : State) : State :=
  { s with blk :=
    { s.blk with
      done := s.blk.done && !v.getLsbD 1
      err := s.blk.err && !v.getLsbD 2
      errcode := if v.getLsbD 2 then 0#4 else s.blk.errcode } }

/-- What an idle `CMD` write does first (R55): `DONE`, `ERR` and `ERRCODE` are cleared. -/
def clearStatus (s : State) : State :=
  { s with blk := { s.blk with done := false, err := false, errcode := 0#4 } }

/-- A null-destination command is complete in the step that accepts it (R57). -/
def completeNull (s : State) : State := { s with blk := { s.blk with done := true } }

/-- The engine starts (R57): `prog <- 0`, `BUSY <- 1`. No source byte has been written by another agent yet (log 17). -/
def startEngine (s : State) : State := { s with blk := { s.blk with prog := 0, busy := true }, dirty := [] }

/-- `prog <- i`, and after the last pixel `BUSY <- 0`, `DONE <- 1` (R58). -/
def advance (i : Nat) (s : State) : State :=
  if i = s.build.pixels then { s with blk := { s.blk with prog := i, busy := false, done := true } }
  else { s with blk := { s.blk with prog := i } }

end Sys2Proof.Machine
end

