-- ==== Sys2Proof/Machine/Issue.lean ====
section
/-! DEFINITION. The steps every command shares at its `CMD` write: the busy refusal (R55), the checks of the regions (R56)
and acceptance (R57). A write whose word decodes to no command is `refuseWord`. -/

namespace Sys2Proof.Machine

/-- R56 tests 4 and 5, on unbounded integers: the range test, then the overlap test. -/
def checkRegions (op : Op) (b : Build) (sb db : Nat) : Option ErrCode :=
  if b.space < sb + b.pixels ∨ b.space < db + b.pixels then some .range
  else if regionsOverlap sb db b.pixels && !(op.isPoint && decide (sb = db)) then some .overlap
  else none

/-- `CMD` and the hidden copies of the operands (R57, R28). -/
def latch (op : Op) (nulldst : Bool) (thresh : Byte) (s : State) : State :=
  { s with blk :=
    { s.blk with
      cmd := cmdWord op.code nulldst thresh
      latOp := op.code
      latThresh := thresh
      src := s.blk.srcBase
      dst := s.blk.dstBase } }

/-- The source or the destination region of the next command covers memory with side effects (R101). -/
def regionsCoverDevice (s : State) : Bool :=
  coversDevice s.build s.blk.srcBase.toNat s.build.pixels || coversDevice s.build s.blk.dstBase.toNat s.build.pixels

/-- The handling of the `CMD` write of a command's word (R55, R56, R57); tests 1 and 2 of R56 are the decoder's. -/
def issue (op : Op) (nulldst : Bool) (thresh : Byte) (s : State) : Host.Outcome State Fault Refusal :=
  if s.blk.busy then .next (raiseError .busy s)
  else if nulldst then .next (completeNull (latch op nulldst thresh (clearStatus s)))
  else
    match checkRegions op s.build s.blk.srcBase.toNat s.blk.dstBase.toNat with
    | some e => .next (raiseError e (clearStatus s))
    | none =>
      if regionsCoverDevice s then .refused .deviceRegion
      else .next (startEngine (latch op nulldst thresh (clearStatus s)))

/-- The `CMD` write of a word that decodes to a refusal (R55, R56 tests 1 and 2); `BUSY` comes first (R84). -/
def refuseWord (e : ErrCode) (s : State) : State :=
  if s.blk.busy then raiseError .busy s else raiseError e (clearStatus s)

end Sys2Proof.Machine
end

