-- ==== Sys2Proof/Machine/Operands.lean ====
section
/-! DEFINITION. The operands of the commands: the packed pixel and its codec (R63 to R69), the pixels of an image (R11,
R32), the replicated border and the 3×3 window (R76, R77). -/

namespace Sys2Proof.Machine

/-- A channel of the packed pixel (R63). -/
inductive Chan where
  | red | green | blue
deriving DecidableEq, Repr

/-- The position of a channel's least significant bit (R8). -/
def Chan.pos : Chan → Nat
  | .red => Config.rpos
  | .green => Config.gpos
  | .blue => Config.bpos

/-- A channel's maximum `MAX_c` (R8, R63). -/
def Chan.max : Chan → Nat
  | .red => Config.maxR
  | .green => Config.maxG
  | .blue => Config.maxB

/-- `R(p)`, `G(p)`, `B(p)` (R65): "fixed bit-shift/mask pairs". -/
def chan (c : Chan) (p : Byte) : Nat := (p.toNat >>> c.pos) &&& c.max

/-- `dec(p)` (R65). -/
def dec (p : Byte) : Nat × Nat × Nat := (chan .red p, chan .green p, chan .blue p)

/-- `enc(r, g, b)` (R66): each input is masked to its width, not clamped. -/
def enc (r g b : Nat) : Byte :=
  BitVec.ofNat 8 (((r &&& Config.maxR) <<< Config.rpos) ||| ((g &&& Config.maxG) <<< Config.gpos) |||
    ((b &&& Config.maxB) <<< Config.bpos))

/-- An image as the filter rules see it (R11): the pixel at column `x` and row `y`. -/
abbrev Image := Nat → Nat → Byte

/-- `pixaddr(base, x, y) = base + y*W + x` (R32). -/
def pixaddr (b : Build) (base x y : Nat) : Nat := base + y * b.width + x

/-- `S(x, y)` for an image at `base` in a memory (R11). -/
def imageAt (b : Build) (m : Memory) (base : Nat) : Image := fun x y => m.read (pixaddr b base x y)

/-- `clamp(v, 0, n-1)` for a coordinate (R11). -/
def clampCoord (n : Nat) (v : Int) : Nat := (min (max v 0) ((n : Int) - 1)).toNat

/-- `Sr(x, y)` (R11, R76): the replicate-border sample. -/
def replicated (b : Build) (I : Image) (x y : Int) : Byte := I (clampCoord b.width x) (clampCoord b.height y)

/-- `w_c(i, j)` (R77): column offset `i`, row offset `j`. -/
def window (b : Build) (I : Image) (c : Chan) (x y i j : Nat) : Nat :=
  chan c (replicated b I ((x : Int) + i - 1) ((y : Int) + j - 1))

/-- `clamp(v, 0, hi)` of a channel value (R10, R79). -/
def clampChan (hi : Nat) (v : Int) : Nat := (min (max v 0) (hi : Int)).toNat

end Sys2Proof.Machine
end

