-- ==== Sys2Proof/Machine/PointFilters.lean ====
section
/-! DEFINITION. The point filters and Mirror (42_point_filters.md). For each command two definitions: `exec…` is the `CMD`
write of its word, `pixel…` its image function `F`, which the engine's step writes pixel by pixel (R58, R59). -/

namespace Sys2Proof.Machine

/-- `invb(p) = 255 - p` (R70). -/
def invb (p : Byte) : Byte := BitVec.ofNat 8 (255 - p.toNat)

/-- `invc(p)` (R71): each channel against its own maximum. -/
def invc (p : Byte) : Byte :=
  enc (Config.maxR - chan .red p) (Config.maxG - chan .green p) (Config.maxB - chan .blue p)

/-- `bw(p, t)` (R73), on the raw byte: the strict comparison of this build, or the named variant. -/
def bw (cmp : BwCmp) (t p : Byte) : Byte :=
  match cmp with
  | .gt => if p.toNat > t.toNat then 0xFF#8 else 0x00#8
  | .ge => if p.toNat ≥ t.toNat then 0xFF#8 else 0x00#8

/-- `gray(p)` (R75). -/
def gray (p : Byte) : Byte :=
  let rs := chan .red p
  let gs := chan .green p <<< (Config.rbits - Config.gbits)
  let bs := chan .blue p <<< (Config.rbits - Config.bbits)
  let v := min ((rs + gs + bs) / 3) Config.maxR
  enc v (v >>> (Config.rbits - Config.gbits)) (v >>> (Config.rbits - Config.bbits))

/-- INVB's image function (R70). -/
def pixelInvb (I : Image) (x y : Nat) : Byte := invb (I x y)

/-- INVC's image function (R71). -/
def pixelInvc (I : Image) (x y : Nat) : Byte := invc (I x y)

/-- BW's image function (R73), with the latched threshold. -/
def pixelBw (b : Build) (t : Byte) (I : Image) (x y : Nat) : Byte := bw b.bwCmp t (I x y)

/-- MIRR's image function (R74). -/
def pixelMirr (b : Build) (I : Image) (x y : Nat) : Byte := I (b.width - 1 - x) y

/-- GRAY's image function (R75). -/
def pixelGray (I : Image) (x y : Nat) : Byte := gray (I x y)

/-- INVB (R70). -/
def execInvb (nulldst : Bool) (thresh : Byte) (s : State) : Host.Outcome State Fault Refusal := issue .invb nulldst thresh s

/-- INVC (R71). -/
def execInvc (nulldst : Bool) (thresh : Byte) (s : State) : Host.Outcome State Fault Refusal := issue .invc nulldst thresh s

/-- BW (R73). -/
def execBw (nulldst : Bool) (thresh : Byte) (s : State) : Host.Outcome State Fault Refusal := issue .bw nulldst thresh s

/-- MIRR (R74). -/
def execMirr (nulldst : Bool) (thresh : Byte) (s : State) : Host.Outcome State Fault Refusal := issue .mirr nulldst thresh s

/-- GRAY (R75). -/
def execGray (nulldst : Bool) (thresh : Byte) (s : State) : Host.Outcome State Fault Refusal := issue .gray nulldst thresh s

end Sys2Proof.Machine
end

