-- ==== Sys2Proof/Machine/WindowFilters.lean ====
section
/-! DEFINITION. The 3×3 window filters (43_convolution.md), in the form of Machine/PointFilters.lean. -/

namespace Sys2Proof.Machine

/-- A 3×3 kernel, rows top to bottom (R77). -/
abbrev Kernel := List (List Int)

/-- `K[j][i]` (R77). -/
def kernelAt (K : Kernel) (i j : Nat) : Int := (K.getD j []).getD i 0

/-- The sum over the window of `K[j][i] * w(i, j)` (R77). -/
def convolve (K : Kernel) (w : Nat → Nat → Nat) : Int :=
  ((List.range 3).map fun j => ((List.range 3).map fun i => kernelAt K i j * (w i j : Int)).sum).sum

/-- Blur's weights, all 1 (R78). -/
def kernelBlur : Kernel := [[1, 1, 1], [1, 1, 1], [1, 1, 1]]

/-- Sharpen's kernel (R79). -/
def kernelSharp : Kernel := [[0, -1, 0], [-1, 5, -1], [0, -1, 0]]

/-- `KX` (R80). -/
def kernelSobelX : Kernel := [[-1, 0, 1], [-2, 0, 2], [-1, 0, 1]]

/-- `KY` (R80). -/
def kernelSobelY : Kernel := [[-1, -2, -1], [0, 0, 0], [1, 2, 1]]

/-- `blur_c(x, y)` (R78): truncating mean. -/
def blurChan (b : Build) (I : Image) (x y : Nat) (c : Chan) : Nat := (convolve kernelBlur (window b I c x y)).toNat / 9

/-- `sharp_c(x, y)` (R79). -/
def sharpChan (b : Build) (I : Image) (x y : Nat) (c : Chan) : Nat :=
  clampChan c.max (convolve kernelSharp (window b I c x y))

/-- `m_c(x, y)` (R80) for a pair of kernels. -/
def sobelMagnitude (KX KY : Kernel) (w : Nat → Nat → Nat) : Nat := (convolve KX w).natAbs + (convolve KY w).natAbs

/-- `sobel_c(x, y)` (R80). -/
def sobelChan (b : Build) (I : Image) (x y : Nat) (c : Chan) : Nat :=
  min (sobelMagnitude kernelSobelX kernelSobelY (window b I c x y) >>> Config.sobelShift) c.max

/-- BLUR's image function (R78). -/
def pixelBlur (b : Build) (I : Image) (x y : Nat) : Byte :=
  enc (blurChan b I x y .red) (blurChan b I x y .green) (blurChan b I x y .blue)

/-- SHARP's image function (R79). -/
def pixelSharp (b : Build) (I : Image) (x y : Nat) : Byte :=
  enc (sharpChan b I x y .red) (sharpChan b I x y .green) (sharpChan b I x y .blue)

/-- SOBEL's image function (R80). -/
def pixelSobel (b : Build) (I : Image) (x y : Nat) : Byte :=
  enc (sobelChan b I x y .red) (sobelChan b I x y .green) (sobelChan b I x y .blue)

/-- BLUR (R78). -/
def execBlur (nulldst : Bool) (thresh : Byte) (s : State) : Host.Outcome State Fault Refusal := issue .blur nulldst thresh s

/-- SHARP (R79). -/
def execSharp (nulldst : Bool) (thresh : Byte) (s : State) : Host.Outcome State Fault Refusal := issue .sharp nulldst thresh s

/-- SOBEL (R80). -/
def execSobel (nulldst : Bool) (thresh : Byte) (s : State) : Host.Outcome State Fault Refusal := issue .sobel nulldst thresh s

end Sys2Proof.Machine
end

