-- ==== Sys2Proof/Machine/Engine.lean ====
section
/-! DEFINITION. The engine's step (R58): one output pixel of the running command. -/

namespace Sys2Proof.Machine

/-- The image function of each command (R59), on an image, with the latched threshold. -/
def pixel (b : Build) (op : Op) (t : Byte) (I : Image) (x y : Nat) : Byte :=
  match op with
  | .invb => pixelInvb I x y
  | .invc => pixelInvc I x y
  | .bw => pixelBw b t I x y
  | .mirr => pixelMirr b I x y
  | .blur => pixelBlur b I x y
  | .sharp => pixelSharp b I x y
  | .sobel => pixelSobel b I x y
  | .gray => pixelGray I x y

/-- The coordinates `(x + dx, y + dy)`, clamped into the image (R76), for a list of offsets. -/
def clampedAt (b : Build) (x y : Nat) (offsets : List (Int × Int)) : List (Nat × Nat) :=
  offsets.map fun d => (clampCoord b.width ((x : Int) + d.1), clampCoord b.height ((y : Int) + d.2))

/-- The eight neighbours of a pixel. -/
def ring : List (Int × Int) := [(-1, -1), (0, -1), (1, -1), (-1, 0), (1, 0), (-1, 1), (0, 1), (1, 1)]

/-- The pixel and its four edge neighbours. -/
def cross : List (Int × Int) := [(0, 0), (0, -1), (-1, 0), (1, 0), (0, 1)]

/-- The source pixels an output pixel's step must read (the "bytes read" column of R59; SOBEL's centre is optional). -/
def mustRead (b : Build) (op : Op) (x y : Nat) : List (Nat × Nat) :=
  match op with
  | .invb | .invc | .bw | .gray => [(x, y)]
  | .mirr => [(b.width - 1 - x, y)]
  | .blur => clampedAt b x y ((0, 0) :: ring)
  | .sharp => clampedAt b x y cross
  | .sobel => clampedAt b x y ring

/-- The source pixels of R59's column, SOBEL's optional centre with them: what R100 calls the reads of an output pixel (log 6). -/
def mayDependOn (b : Build) (op : Op) (x y : Nat) : List (Nat × Nat) :=
  match op with
  | .sobel => clampedAt b x y ((0, 0) :: ring)
  | _ => mustRead b op x y

/-- The byte address of a source pixel of the running command (R11, R32). -/
def sourceAddr (s : State) (q : Nat × Nat) : Nat := pixaddr s.build s.blk.src.toNat q.1 q.2

/-- Every byte of the source region answers. -/
def sourceAnswers (s : State) : Bool :=
  (List.range s.build.pixels).all fun k => answers s.build (s.blk.src.toNat + k)

/-- The column and row of the next output pixel (R29). -/
def nextX (s : State) : Nat := s.blk.prog % s.build.width
def nextY (s : State) : Nat := s.blk.prog / s.build.width

/-- The address of the next output byte, `dst + i` (R58). -/
def nextAddr (s : State) : Nat := s.blk.dst.toNat + s.blk.prog

/-- The step is stuck (R36, R37, R58): the write or a read it must make gets no answer; or a source byte that it need not
read, but may (R59), does not answer, and the engine reads it: a free choice. DESIGN CHOICE (log 7): one draw for each pixel
step, which holds until the step is taken or reset comes. -/
def engineStalled (s : State) (op : Op) : Bool :=
  !answers s.build (nextAddr s) ||
    !((mustRead s.build op (nextX s) (nextY s)).all fun q => answers s.build (sourceAddr s q)) ||
    (!sourceAnswers s && Config.extraReadStalls s.tick)

/-- The output byte is unspecified: its reads include a source byte another agent wrote while the command ran (R100). -/
def outputOpen (s : State) (op : Op) : Bool :=
  (mayDependOn s.build op (nextX s) (nextY s)).any fun q => s.dirty.contains (sourceAddr s q)

/-- The next output byte (R58, R59), a free value where R100 leaves it open (log 5). -/
def outputByte (s : State) (op : Op) : Byte :=
  if outputOpen s op then Config.freeByte s.tick
  else pixel s.build op s.blk.latThresh (imageAt s.build s.mem s.blk.src.toNat) (nextX s) (nextY s)

/-- The output byte is written, the next free value is another one, and `prog` moves on (R58), all at once (log 16). -/
def writePixel (s : State) (op : Op) : State :=
  advance (s.blk.prog + 1)
    { s with mem := s.mem.write (nextAddr s) (outputByte s op), tick := s.tick + 1 }

/-- The engine's step (R58), none where it is not enabled: idle, or stuck. A latched code that names no command is never
reached (log 15). -/
def engineStep (s : State) : Option State :=
  if s.blk.busy then
    match Op.ofCode s.blk.latOp with
    | none => none
    | some op => if engineStalled s op then none else some (writePixel s op)
  else none

/-- The engine's turn: its step where it is enabled, else nothing (log 8). -/
def engineTurn (s : State) : State := (engineStep s).getD s

end Sys2Proof.Machine
end

