-- ==== Sys2Proof/Machine/Dispatch.lean ====
section
/-! DEFINITION. One arm per command. -/

namespace Sys2Proof.Machine

def exec (i : Instr) (s : State) : Host.Outcome State Fault Refusal :=
  match i with
  -- 42_point_filters.md
  | .invb nulldst thresh => Sys2Proof.Machine.execInvb nulldst thresh s
  | .invc nulldst thresh => Sys2Proof.Machine.execInvc nulldst thresh s
  | .bw nulldst thresh => Sys2Proof.Machine.execBw nulldst thresh s
  | .mirr nulldst thresh => Sys2Proof.Machine.execMirr nulldst thresh s
  -- 43_convolution.md
  | .blur nulldst thresh => Sys2Proof.Machine.execBlur nulldst thresh s
  | .sharp nulldst thresh => Sys2Proof.Machine.execSharp nulldst thresh s
  | .sobel nulldst thresh => Sys2Proof.Machine.execSobel nulldst thresh s
  -- 42_point_filters.md
  | .gray nulldst thresh => Sys2Proof.Machine.execGray nulldst thresh s

end Sys2Proof.Machine
end

