-- ==== Sys2Proof/Machine/RegisterPort.lean ====
section
/-! DEFINITION. The register port (R15, R16): offsets, what a read returns, what a write does. -/

namespace Sys2Proof.Machine

/-- The offset of each register (R16). -/
def Reg.offset : Reg → Nat
  | .cmd => 0x00
  | .srcBase => 0x04
  | .dstBase => 0x08
  | .status => 0x0C
  | .codecPix => 0x10
  | .codecDec => 0x14
  | .codecCh => 0x18
  | .codecEnc => 0x1C
  | .param => 0x20

/-- `CODEC_DEC` (R22). -/
def codecDecWord (k : Block) : Word :=
  BitVec.ofNat 32 (chan .red k.codecPix) ||| (BitVec.ofNat 32 (chan .green k.codecPix) <<< 8) |||
    (BitVec.ofNat 32 (chan .blue k.codecPix) <<< 16)

/-- `CODEC_CH` (R23): stored unmasked. -/
def codecChWord (k : Block) : Word :=
  k.codecR.setWidth 32 ||| (k.codecG.setWidth 32 <<< 8) ||| (k.codecB.setWidth 32 <<< 16)

/-- `CODEC_ENC` (R24). -/
def codecEncWord (k : Block) : Word := (enc k.codecR.toNat k.codecG.toNat k.codecB.toNat).setWidth 32

/-- `PARAM` (R25). -/
def paramWord (b : Build) : Word := BitVec.ofNat 32 b.width ||| (BitVec.ofNat 32 b.height <<< 16)

/-- What `RegRead(off)` returns (R16 to R26). -/
def regValue (s : State) (off : Nat) : Word :=
  match off with
  | 0x00 => s.blk.cmd
  | 0x04 => s.blk.srcBase
  | 0x08 => s.blk.dstBase
  | 0x0C => statusWord s.blk
  | 0x10 => s.blk.codecPix.setWidth 32
  | 0x14 => codecDecWord s.blk
  | 0x18 => codecChWord s.blk
  | 0x1C => codecEncWord s.blk
  | 0x20 => paramWord s.build
  | _ => 0#32

/-- `RegWrite(0x00, v)` (R55): the decoded command runs, a word that decodes to none is refused. -/
def cmdWrite (v : Word) (s : State) : Host.Outcome State Fault Refusal :=
  match decode v with
  | .command i => exec i s
  | .refused e => .next (refuseWord e s)

/-- A write of `SRC_BASE` (R18), effective at once, busy or not (R103). -/
def writeSrcBase (v : Word) (s : State) : State := { s with blk := { s.blk with srcBase := truncAddr s.build v } }

/-- A write of `DST_BASE` (R19). -/
def writeDstBase (v : Word) (s : State) : State := { s with blk := { s.blk with dstBase := truncAddr s.build v } }

/-- A write of `CODEC_PIX` (R21). -/
def writeCodecPix (v : Word) (s : State) : State := { s with blk := { s.blk with codecPix := v.extractLsb' 0 8 } }

/-- A write of `CODEC_CH` (R23). -/
def writeCodecCh (v : Word) (s : State) : State :=
  { s with blk :=
    { s.blk with codecR := v.extractLsb' 0 8, codecG := v.extractLsb' 8 8, codecB := v.extractLsb' 16 8 } }

/-- `RegWrite(off, v)` (R16): writes of read-only and reserved offsets are ignored (R22, R24, R25, R26). -/
def regWrite (off : Nat) (v : Word) (s : State) : Host.Outcome State Fault Refusal :=
  match off with
  | 0x00 => cmdWrite v s
  | 0x04 => .next (writeSrcBase v s)
  | 0x08 => .next (writeDstBase v s)
  | 0x0C => .next (statusWrite v s)
  | 0x10 => .next (writeCodecPix v s)
  | 0x18 => .next (writeCodecCh v s)
  | _ => .next s

end Sys2Proof.Machine
end

