-- ==== Sys2Proof/Machine/HostAgent.lean ====
section
/-! DEFINITION. The host's step (R7): one operation of its program (R54), its accesses by platform address (R15, R39), and
the pseudo-instructions of R54. -/

namespace Sys2Proof.Machine

/-- The result of a register read reaches the host (`RD`, R54). -/
def recordWord (w : Word) (s : State) : State :=
  { s with outside := { s.outside with words := w :: s.outside.words } }

/-- The field of a register that `POLL` looks at: `width` bits from bit `lo` up (R54). -/
def fieldValue (w : Word) (lo width : Nat) : Nat := (w.toNat >>> lo) % 2 ^ width

/-- A host register access that R15 does not define is refused (log 11). -/
def guardRegister (off size : Nat) (r : Host.Outcome State Fault Refusal) : Host.Outcome State Fault Refusal :=
  if RegAccess.wf ⟨off, size⟩ then r else .refused .registerAccess

/-- A register word from its four bytes on the host's bus, the lowest address first (R15: `REG_BYTE_ORDER`, log 20). -/
def wordOfBytes (o : ByteOrder) (bytes : List Byte) : Word :=
  let v := match o with
    | .little => bytes.foldr (fun d acc => acc * 256 + d.toNat) 0
    | .big => bytes.foldl (fun acc d => acc * 256 + d.toNat) 0
  BitVec.ofNat 32 v

/-- An access of `size` bytes at a platform address reaches the 64 bytes of the window at `ENGINE_BASE` (R15, R31). -/
def reachesWindow (b : Build) (addr size : Nat) : Bool :=
  decide (addr < b.engineBase + 64) && decide (b.engineBase < addr + size)

/-- The window offset of a platform address; none below the window. -/
def windowOffset (b : Build) (addr : Nat) : Option Nat :=
  if b.engineBase ≤ addr then some (addr - b.engineBase) else none

/-- A host write of bytes at a platform address. One that does not reach the window is another device's, and the block
does not see it; one that reaches it is a `RegWrite` if R15 defines it (log 11). -/
def busWrite (addr : Nat) (bytes : List Byte) (s : State) : Host.Outcome State Fault Refusal :=
  if reachesWindow s.build addr bytes.length then
    match windowOffset s.build addr with
    | none => .refused .registerAccess
    | some off => guardRegister off bytes.length (regWrite off (wordOfBytes s.build.regByteOrder bytes) s)
  else .next s

/-- A host read of bytes at a platform address, as `busWrite`. -/
def busRead (addr size : Nat) (s : State) : Host.Outcome State Fault Refusal :=
  if reachesWindow s.build addr size then
    match windowOffset s.build addr with
    | none => .refused .registerAccess
    | some off => guardRegister off size (.next (recordWord (regValue s off) s))
  else .next s

/-- The host's operation at the front of its program is over. -/
def popOp (s : State) : State := { s with outside := { s.outside with program := s.outside.program.tail } }

/-- One operation of the host. `POLL` reads once, and stays in front of the program until its field has the value (R54). -/
def hostOp (op : HostOp) (s : State) : Host.Outcome State Fault Refusal :=
  match op with
  | .wr off v => guardRegister off 4 (regWrite off v (popOp s))
  | .rd off => guardRegister off 4 (.next (recordWord (regValue s off) (popOp s)))
  | .poll off lo width v => guardRegister off 4 (.next (if fieldValue (regValue s off) lo width = v then popOp s else s))
  | .busWr addr bytes => busWrite addr bytes (popOp s)
  | .busRd addr size => busRead addr size (popOp s)
  | .memWr a v => outsideWrite a v (popOp s)
  | .memRd a => hostMemRead a (popOp s)

/-- The host's turn; with nothing left to do it does nothing. -/
def hostTurn (s : State) : Host.Outcome State Fault Refusal :=
  match s.outside.program with
  | [] => .next s
  | op :: _ => hostOp op s

/-- `WR <reg>, <value>` (R54). -/
def opWR (r : Reg) (v : Word) : HostOp := .wr r.offset v

/-- `RD <reg>` (R54). -/
def opRD (r : Reg) : HostOp := .rd r.offset

/-- `POLL STATUS.BUSY == v` and `POLL STATUS.DONE == v` (R54, R20). -/
def opPollBusy (v : Nat) : HostOp := .poll Reg.status.offset 0 1 v
def opPollDone (v : Nat) : HostOp := .poll Reg.status.offset 1 1 v

/-- `MEMWR <addr>, <bytes...>` (R54): one access per byte. DESIGN CHOICE (log 22): one host step each, from the lowest address up. -/
def opsMEMWR : Nat → List Byte → List HostOp
  | _, [] => []
  | a, v :: vs => .memWr a v :: opsMEMWR (a + 1) vs

/-- `MEMRD <addr>, <n>` (R54): one access per byte. DESIGN CHOICE (log 22): one host step each, from the lowest address up. -/
def opsMEMRD (a n : Nat) : List HostOp := (List.range n).map fun k => .memRd (a + k)

/-- `FILTER <cmd>, <src>, <dst>` (R54). -/
def opsFILTER (i : Instr) (src dst : Word) : List HostOp :=
  [opWR .srcBase src, opWR .dstBase dst, opWR .cmd (encode i), opPollBusy 0]

/-- `CLRSTAT` (R54). -/
def opsCLRSTAT : List HostOp := [opWR .status 0x6#32]

/-- `DECODE <p>` (R54, R65). -/
def opsDECODE (p : Word) : List HostOp := [opWR .codecPix p, opRD .codecDec]

/-- `ENCODE <r>, <g>, <b>` (R54, R66): the word of `CODEC_CH` is `(b << 16) | (g << 8) | r`. -/
def opsENCODE (r g b : Word) : List HostOp := [opWR .codecCh ((b <<< 16) ||| (g <<< 8) ||| r), opRD .codecEnc]

end Sys2Proof.Machine
end

