-- ==== Sys2Proof/Machine/Scheduler.lean ====
section
/-! DEFINITION. Whose turn it is, and each agent's turn (R7, R85). -/

namespace Sys2Proof.Machine

/-- The turn that comes next: the first one listed; with none listed the engine's if its step is enabled, else the host's (log 3). -/
def nextTurn (s : State) : Turn :=
  match s.outside.sched with
  | t :: _ => t
  | [] => if (engineStep s).isSome then .engine else .host

/-- The listed turn is used up. -/
def popTurn (s : State) : State := { s with outside := { s.outside with sched := s.outside.sched.tail } }

/-- One agent's turn. -/
def takeTurn (t : Turn) (s : State) : Host.Outcome State Fault Refusal :=
  match t with
  | .host => hostTurn s
  | .engine => .next (engineTurn s)
  | .reset => .next (resetBlock s)
  | .masterWrite a v => outsideWrite a v s
  | .masterRead a => masterMemRead a s

/-- Put an operation in front of the host's program and give the host the next turn. -/
def pushHostOp (op : HostOp) (s : State) : State :=
  { s with outside := { s.outside with program := op :: s.outside.program, sched := .host :: s.outside.sched } }

/-- The command word of a table row, as the host writes it to `CMD` (R53): bits from `nbits` up are 0. -/
def tableWord (nbits w : Nat) : Word := BitVec.ofNat 32 (w % 2 ^ nbits)

end Sys2Proof.Machine
end

