-- ==== Sys2Proof/Machine/Step.lean ====
section
/-! DEFINITION. One step of the machine: the next agent takes its turn (R7, R85). -/

namespace Sys2Proof.Machine

/-- One step. -/
def step (s : State) : Host.Outcome State Fault Refusal := takeTurn (nextTurn s) (popTurn s)

/-- The block fetches nothing (R13): a command runs when the host writes its word to `CMD` (R55). So the word is placed as the
host's next operation, and the host's turn as the next turn (log 4). -/
def State.withFetchWord (s : State) (nbits w : Nat) : State := pushHostOp (opWR .cmd (tableWord nbits w)) s

end Sys2Proof.Machine
end

