-- ==== Sys2Proof/Safety.lean ====
section
/-! DEFINITION. The terms claims use: when a command may be accepted and its memory answers, what acceptance and
refusal leave, a run of the engine, and the invariant of the machine. -/

namespace Sys2Proof.Machine

/-- R56 tests 4 and 5 passed: both regions end inside the address space, and they are disjoint, or they are one region and
the command is a point filter. -/
structure RegionsOk (b : Build) (op : Op) (sb db : Nat) : Prop where
  srcFits : sb + b.pixels ≤ b.space
  dstFits : db + b.pixels ≤ b.space
  apart   : sb + b.pixels ≤ db ∨ db + b.pixels ≤ sb ∨ (op.isPoint = true ∧ sb = db)

/-- The `N` bytes from `base` are memory without side effects (R38, R101). -/
def PlainRegion (b : Build) (base : Nat) : Prop := ∀ k < b.pixels, isDevice b (base + k) = false

/-- The `N` bytes from `base` all answer (R36, R62). -/
def AnsweringRegion (b : Build) (base : Nat) : Prop := ∀ k < b.pixels, answers b (base + k) = true

/-- A `CMD` write of this command with `NULLDST = 0` is accepted (R55, R56), and its regions are plain (R101). -/
structure Acceptable (op : Op) (s : State) : Prop where
  idle     : s.blk.busy = false
  regions  : RegionsOk s.build op s.blk.srcBase.toNat s.blk.dstBase.toNat
  srcPlain : PlainRegion s.build s.blk.srcBase.toNat
  dstPlain : PlainRegion s.build s.blk.dstBase.toNat

/-- Both regions named by the base registers answer. -/
structure BasesAnswer (s : State) : Prop where
  src : AnsweringRegion s.build s.blk.srcBase.toNat
  dst : AnsweringRegion s.build s.blk.dstBase.toNat

/-- Both regions of the running command answer (R62). -/
structure RunAnswers (s : State) : Prop where
  src : AnsweringRegion s.build s.blk.src.toNat
  dst : AnsweringRegion s.build s.blk.dst.toNat

/-- The next output byte, or a source byte that its step must read, does not answer (R36, R37, R59). -/
def Unanswered (s : State) (op : Op) : Prop :=
  answers s.build (s.blk.dst.toNat + s.blk.prog) = false ∨
    ∃ q ∈ mustRead s.build op (s.blk.prog % s.build.width) (s.blk.prog / s.build.width),
      answers s.build (pixaddr s.build s.blk.src.toNat q.1 q.2) = false

/-- The same command runs in `t` as in `s`, and has come as far: the accepted word, the latched operands (R28), `prog` (R29) and
`BUSY` are the same. -/
structure SameRun (s t : State) : Prop where
  build     : t.build = s.build
  busy      : t.blk.busy = s.blk.busy
  cmd       : t.blk.cmd = s.blk.cmd
  latOp     : t.blk.latOp = s.blk.latOp
  latThresh : t.blk.latThresh = s.blk.latThresh
  src       : t.blk.src = s.blk.src
  dst       : t.blk.dst = s.blk.dst
  prog      : t.blk.prog = s.blk.prog

/-- The state after the acceptance of a command with `NULLDST = 0`: R55's clearing, then R57. -/
def afterAccept (i : Instr) (s : State) : State :=
  { s with
    blk :=
      { s.blk with
        cmd := encode i
        latOp := i.op.code
        latThresh := i.thresh
        src := s.blk.srcBase
        dst := s.blk.dstBase
        prog := 0
        busy := true
        done := false
        err := false
        errcode := 0#4 }
    dirty := [] }

/-- The state after the acceptance of a command with `NULLDST = 1` (R55, R57): complete at once. -/
def afterNull (i : Instr) (s : State) : State :=
  { s with blk :=
    { s.blk with
      cmd := encode i
      latOp := i.op.code
      latThresh := i.thresh
      src := s.blk.srcBase
      dst := s.blk.dstBase
      done := true
      err := false
      errcode := 0#4 } }

/-- The state after the refusal of a `CMD` write while idle (R55, R83). -/
def afterIdleRefusal (code : BitVec 4) (s : State) : State :=
  { s with blk := { s.blk with done := false, err := true, errcode := code } }

/-- The state after a `CMD` write while busy (R55, R83): `DONE` keeps its value. -/
def afterBusyRefusal (s : State) : State := { s with blk := { s.blk with err := true, errcode := 1#4 } }

/-- `k` engine steps, each of them enabled. -/
def engineRun : Nat → State → Option State
  | 0, s => some s
  | k + 1, s => (engineStep s).bind (engineRun k)

/-- `k` steps of the machine, stopping at the first fault or refusal (the host's `Core.run`, on this machine's own types). -/
def run : Nat → State → Host.Outcome State Fault Refusal
  | 0, s => .next s
  | k + 1, s =>
    match step s with
    | .next t => run k t
    | .fault r => .fault r
    | .refused r => .refused r

/-- The block's registers after the last pixel of a command (R58). -/
def completedBlock (n : Nat) (k : Block) : Block := { k with prog := n, busy := false, done := true }

/-- R46: the destination region holds the image `F` of the source image that stood in memory before; no other byte changed. -/
structure HoldsImage (b : Build) (before after : Memory) (src dst : Nat) (F : Image → Nat → Nat → Byte) : Prop where
  inside  : ∀ x < b.width, ∀ y < b.height, after.read (pixaddr b dst x y) = F (imageAt b before src) x y
  outside : ∀ a, (a < dst ∨ dst + b.pixels ≤ a) → after.read a = before.read a

/-- An accepted command that no other agent disturbs runs `N` engine steps and completes, having written the image `F` (R46,
R58, R62): from `s`, the state after acceptance. Everything but memory, `prog`, `BUSY`, `DONE` and the index of free values is as
acceptance left it. -/
def CompletesWith (s : State) (F : Image → Nat → Nat → Byte) : Prop :=
  ∃ u, engineRun s.build.pixels s = some u ∧
    u.blk = completedBlock s.build.pixels s.blk ∧ u.build = s.build ∧ u.outside = s.outside ∧ u.dirty = s.dirty ∧
    HoldsImage s.build s.mem u.mem s.blk.src.toNat s.blk.dst.toNat F

/-- The next step is the host's whole-word write of `v` at a register offset (R15), by offset or by platform address. -/
def HostWrites (s : State) (off : Nat) (v : Word) : Prop :=
  nextTurn s = .host ∧
    ∃ rest, s.outside.program = .wr off v :: rest ∨
      ∃ bytes, s.outside.program = .busWr (s.build.engineBase + off) bytes :: rest ∧ bytes.length = 4 ∧
        wordOfBytes s.build.regByteOrder bytes = v

/-- What holds of the running command (R89, R28): `prog < N`, its regions passed the checks, its memory is plain, it has a
destination, and `DONE` was cleared at its acceptance (R55). -/
structure RunningInv (s : State) : Prop where
  prog     : s.blk.prog < s.build.pixels
  regions  : ∃ op, Op.ofCode s.blk.latOp = some op ∧ RegionsOk s.build op s.blk.src.toNat s.blk.dst.toNat
  srcPlain : PlainRegion s.build s.blk.src.toNat
  dstPlain : PlainRegion s.build s.blk.dst.toNat
  hasDst   : nulldstField s.blk.cmd = false
  notDone  : s.blk.done = false

/-- The invariant of the machine. -/
structure MachineInv (s : State) : Prop where
  build     : s.build.wf
  memWf     : s.mem.wf
  memSpace  : ∀ c ∈ s.mem, c.1 < s.build.space
  srcBase   : s.blk.srcBase.toNat < s.build.space
  dstBase   : s.blk.dstBase.toNat < s.build.space
  src       : s.blk.src.toNat < s.build.space
  dst       : s.blk.dst.toNat < s.build.space
  noErr     : s.blk.err = false → s.blk.errcode = 0#4
  hasErr    : s.blk.err = true → 1 ≤ s.blk.errcode.toNat ∧ s.blk.errcode.toNat ≤ 5
  command   : ∃ i, decode s.blk.cmd = .command i ∧ s.blk.latOp = i.op.code ∧ s.blk.latThresh = i.thresh
  prog      : s.blk.prog ≤ s.build.pixels
  running   : s.blk.busy = true → RunningInv s
  dirty     : s.dirty.Pairwise (· < ·)

end Sys2Proof.Machine
end

