-- ==== Sys2Proof/Certificates/Slice0/Obligations.lean ====
section
/-! DEFINITION. The statements about the machine, from the numbered rules of spec/. -/

open Sys2Proof Sys2Proof.Machine

/-- R48, R51: no bit of a command is lost between the encoder and the decoder, for every command and every operand. -/
def Obligations.DecodeOfEncodeIsTheCommand : Prop :=
  ∀ i : Instr, decode (encode i) = .command i ∧ decodeTableWord 32 (encode i).toNat = some i

/-- R48, R51: an accepted word is the word of the command it decodes to, so no two words mean one command. -/
def Obligations.EncodeOfDecodeIsTheWord : Prop :=
  ∀ (v : Word) (i : Instr), decode v = .command i → encode i = v

/-- R51: the decoding of all `2^32` words, its three outcomes in their order, and the number of accepted words. -/
def Obligations.DecodeIsTotalInThreeOutcomes : Prop :=
  (∀ v : Word,
    (v &&& 0xFF00FEF0#32 ≠ 0#32 → decode v = .refused .reserved) ∧
    (v &&& 0xFF00FEF0#32 = 0#32 → 8 ≤ (v.extractLsb' 0 4).toNat → decode v = .refused .illegalOp) ∧
    (v &&& 0xFF00FEF0#32 = 0#32 → (v.extractLsb' 0 4).toNat < 8 →
      ∃ i, decode v = .command i ∧ i.nulldst = v.getLsbD 8 ∧ i.thresh = v.extractLsb' 16 8 ∧
        [Op.invb, .invc, .bw, .mirr, .blur, .sharp, .sobel, .gray][(v.extractLsb' 0 4).toNat]? = some i.op)) ∧
  {v : Word | ∃ i, decode v = .command i}.ncard = 4096

/-- R50, R52: words written out from the opcode map and the format, one for each command, and four that are refused. -/
def Obligations.SampleWordsDecode : Prop :=
  decode 0x00000000#32 = .command (.invb false 0x00#8) ∧
  decode 0x00000101#32 = .command (.invc true 0x00#8) ∧
  decode 0x00800002#32 = .command (.bw false 0x80#8) ∧
  decode 0x00000003#32 = .command (.mirr false 0x00#8) ∧
  decode 0x00FF0004#32 = .command (.blur false 0xFF#8) ∧
  decode 0x00000105#32 = .command (.sharp true 0x00#8) ∧
  decode 0x00000006#32 = .command (.sobel false 0x00#8) ∧
  decode 0x00010107#32 = .command (.gray true 0x01#8) ∧
  decode 0x00000008#32 = .refused .illegalOp ∧
  decode 0x00000108#32 = .refused .illegalOp ∧
  decode 0x0000001F#32 = .refused .reserved ∧
  decode 0x01000000#32 = .refused .reserved

/-- R55, R13, and the model's own placing of a word (log 4): the step in which the host writes a command's word to `CMD` is
`exec` of that command, at the state in which the host's operation and its turn are used up; a word that decodes to no
command is refused in that step. -/
def Obligations.StepRunsTheDecodedCommand : Prop :=
  (∀ (s : State) (nbits w : Nat) (i : Instr), decodeTableWord nbits w = some i →
    step (s.withFetchWord nbits w) = exec i s) ∧
  (∀ (s : State) (v : Word) (i : Instr), HostWrites s 0 v → decode v = .command i →
    step s = exec i { s with outside :=
      { s.outside with program := s.outside.program.tail, sched := s.outside.sched.tail } }) ∧
  (∀ (s : State) (v : Word) (e : ErrCode), HostWrites s 0 v → decode v = .refused e →
    step s = .next
      (let s' := { s with outside :=
        { s.outside with program := s.outside.program.tail, sched := s.outside.sched.tail } }
       if s.blk.busy = true then afterBusyRefusal s' else afterIdleRefusal (errorCode e) s'))

/-- R55, R56, R57, R83, R84: the whole handling of a `CMD` write, for every word and every state, as the spec's pseudocode
orders it; acceptance with a destination where both regions are plain memory, as R101 demands. -/
def Obligations.CommandWriteFollowsThePseudocode : Prop :=
  ∀ (s : State) (v : Word),
    (s.blk.busy = true → regWrite 0x00 v s = .next (afterBusyRefusal s)) ∧
    (s.blk.busy = false →
      (v &&& 0xFF00FEF0#32 ≠ 0#32 → regWrite 0x00 v s = .next (afterIdleRefusal 2#4 s)) ∧
      (v &&& 0xFF00FEF0#32 = 0#32 →
        (8 ≤ v.toNat % 16 → regWrite 0x00 v s = .next (afterIdleRefusal 3#4 s)) ∧
        (v.toNat % 16 < 8 →
          (v.getLsbD 8 = true → regWrite 0x00 v s = .next { s with blk := { s.blk with
              cmd := v, latOp := v.extractLsb' 0 4, latThresh := v.extractLsb' 16 8,
              src := s.blk.srcBase, dst := s.blk.dstBase, done := true, err := false, errcode := 0#4 } }) ∧
          (v.getLsbD 8 = false →
            let n := s.build.width * s.build.height
            let sb := s.blk.srcBase.toNat
            let db := s.blk.dstBase.toNat
            let tooFar := sb + n > 2 ^ s.build.addrBits ∨ db + n > 2 ^ s.build.addrBits
            let overlap := sb < db + n ∧ db < sb + n
            let point := v.toNat % 16 = 0 ∨ v.toNat % 16 = 1 ∨ v.toNat % 16 = 2 ∨ v.toNat % 16 = 7
            (tooFar → regWrite 0x00 v s = .next (afterIdleRefusal 4#4 s)) ∧
            (¬tooFar →
              (overlap ∧ ¬(point ∧ sb = db) → regWrite 0x00 v s = .next (afterIdleRefusal 5#4 s)) ∧
              (¬(overlap ∧ ¬(point ∧ sb = db)) →
                PlainRegion s.build sb → PlainRegion s.build db →
                  regWrite 0x00 v s = .next { s with
                    blk := { s.blk with
                      cmd := v, latOp := v.extractLsb' 0 4, latThresh := v.extractLsb' 16 8,
                      src := s.blk.srcBase, dst := s.blk.dstBase, prog := 0, busy := true,
                      done := false, err := false, errcode := 0#4 }
                    dirty := [] }))))))

/-- R70: INVB. Its words; the byte function, its involution and the spec's example; and the command from any idle state in
which it is accepted: the acceptance, and the run that writes `255 - p` for every pixel and nothing else. -/
def Obligations.InvbInvertsTheWholeByte : Prop :=
  encode (.invb false 0#8) = 0x00000000#32 ∧ encode (.invb true 0#8) = 0x00000100#32 ∧
  (∀ p : Byte, (invb p).toNat = 255 - p.toNat ∧ invb p = ~~~p ∧ invb (invb p) = p) ∧ invb 0xB6#8 = 0x49#8 ∧
  ∀ (s : State) (t : Byte), s.build.wf → s.mem.wf → Acceptable .invb s →
    exec (.invb false t) s = .next (afterAccept (.invb false t) s) ∧
    (BasesAnswer s → CompletesWith (afterAccept (.invb false t) s) fun I x y => invb (I x y))

/-- R71: INVC, as INVB, each channel against its own maximum. -/
def Obligations.InvcInvertsEachChannel : Prop :=
  encode (.invc false 0#8) = 0x00000001#32 ∧ encode (.invc true 0#8) = 0x00000101#32 ∧
  (∀ p : Byte, dec (invc p) = (7 - (dec p).1, 7 - (dec p).2.1, 3 - (dec p).2.2) ∧ invc (invc p) = p) ∧
  invc 0xB6#8 = 0x49#8 ∧
  ∀ (s : State) (t : Byte), s.build.wf → s.mem.wf → Acceptable .invc s →
    exec (.invc false t) s = .next (afterAccept (.invc false t) s) ∧
    (BasesAnswer s → CompletesWith (afterAccept (.invc false t) s) fun I x y =>
      let p := I x y
      enc (7 - (dec p).1) (7 - (dec p).2.1) (3 - (dec p).2.2))

/-- R73: BW. Its word with a threshold; the command compares the raw byte with its own `THRESH`, strictly in a build with
`BW_CMP = GT` (this spec's), with equality in the named variant `GE` (log 13). -/
def Obligations.BwComparesTheRawByte : Prop :=
  (∀ t : Byte, (encode (.bw false t)).toNat = 2 + t.toNat * 0x10000 ∧
    (encode (.bw true t)).toNat = 2 + t.toNat * 0x10000 + 0x100) ∧
  ∀ (s : State) (t : Byte), s.build.wf → s.mem.wf → Acceptable .bw s →
    exec (.bw false t) s = .next (afterAccept (.bw false t) s) ∧
    (BasesAnswer s → s.build.bwCmp = .gt → CompletesWith (afterAccept (.bw false t) s) fun I x y =>
      if (I x y).toNat > t.toNat then 0xFF#8 else 0x00#8) ∧
    (BasesAnswer s → s.build.bwCmp = .ge → CompletesWith (afterAccept (.bw false t) s) fun I x y =>
      if (I x y).toNat ≥ t.toNat then 0xFF#8 else 0x00#8)

/-- R74: MIRR. Its words, the involution, the refusal of regions that overlap, one region for both among them, and the
command's run. -/
def Obligations.MirrFlipsEachRow : Prop :=
  encode (.mirr false 0#8) = 0x00000003#32 ∧ encode (.mirr true 0#8) = 0x00000103#32 ∧
  (∀ (b : Build) (I : Image) (x y : Nat), x < b.width → pixelMirr b (pixelMirr b I) x y = I x y) ∧
  (∀ (s : State) (t : Byte), s.blk.busy = false →
    s.blk.srcBase.toNat + s.build.pixels ≤ s.build.space → s.blk.dstBase.toNat + s.build.pixels ≤ s.build.space →
    s.blk.srcBase.toNat < s.blk.dstBase.toNat + s.build.pixels → s.blk.dstBase.toNat < s.blk.srcBase.toNat + s.build.pixels →
      exec (.mirr false t) s = .next (afterIdleRefusal 5#4 s)) ∧
  ∀ (s : State) (t : Byte), s.build.wf → s.mem.wf → Acceptable .mirr s →
    exec (.mirr false t) s = .next (afterAccept (.mirr false t) s) ∧
    (BasesAnswer s → CompletesWith (afterAccept (.mirr false t) s) fun I x y => I (s.build.width - 1 - x) y)

/-- R75: GRAY. Its words, the seven outputs and the examples of the rule, and the command's run with the gray value of each
pixel: the channels scaled to red's depth, averaged by truncating division, clamped to 7. -/
def Obligations.GrayAveragesTheChannels : Prop :=
  encode (.gray false 0#8) = 0x00000007#32 ∧ encode (.gray true 0#8) = 0x00000107#32 ∧
  (∀ p : Byte, gray p ∈ [0x00#8, 0x24#8, 0x49#8, 0x6D#8, 0x92#8, 0xB6#8, 0xDB#8]) ∧
  gray 0xFF#8 = 0xDB#8 ∧ gray 0x00#8 = 0x00#8 ∧ gray 0x24#8 = 0x00#8 ∧ gray 0xE0#8 = 0x49#8 ∧
  ∀ (s : State) (t : Byte), s.build.wf → s.mem.wf → Acceptable .gray s →
    exec (.gray false t) s = .next (afterAccept (.gray false t) s) ∧
    (BasesAnswer s → CompletesWith (afterAccept (.gray false t) s) fun I x y =>
      let p := I x y
      let v := min (((dec p).1 + (dec p).2.1 + 2 * (dec p).2.2) / 3) 7
      enc v v (v / 2))

/-- R78: BLUR. Its words, the command's run with the truncating mean of the nine samples of each channel, and the corner
cases: no channel is masked, an image of one value, a 1 × 1 image among them, is unchanged. -/
def Obligations.BlurIsTheTruncatedMean : Prop :=
  encode (.blur false 0#8) = 0x00000004#32 ∧ encode (.blur true 0#8) = 0x00000104#32 ∧
  (∀ (b : Build) (I : Image) (x y : Nat) (c : Chan), chan c (pixelBlur b I x y) =
    (window b I c x y 0 0 + window b I c x y 1 0 + window b I c x y 2 0 +
     window b I c x y 0 1 + window b I c x y 1 1 + window b I c x y 2 1 +
     window b I c x y 0 2 + window b I c x y 1 2 + window b I c x y 2 2) / 9) ∧
  (∀ (b : Build) (I : Image) (p : Byte) (x y : Nat), b.wf → (∀ u < b.width, ∀ v < b.height, I u v = p) →
    pixelBlur b I x y = p) ∧
  ∀ (s : State) (t : Byte), s.build.wf → s.mem.wf → Acceptable .blur s →
    exec (.blur false t) s = .next (afterAccept (.blur false t) s) ∧
    (BasesAnswer s → CompletesWith (afterAccept (.blur false t) s) fun I x y =>
      let mean := fun c =>
        let w := window s.build I c x y
        (w 0 0 + w 1 0 + w 2 0 + w 0 1 + w 1 1 + w 2 1 + w 0 2 + w 1 2 + w 2 2) / 9
      enc (mean .red) (mean .green) (mean .blue))

/-- R79: SHARP. Its words, the command's run with the kernel on each channel clamped to that channel's range, and the corner
case that an image of one value, a 1 × 1 image among them, is unchanged. -/
def Obligations.SharpClampsToTheChannel : Prop :=
  encode (.sharp false 0#8) = 0x00000005#32 ∧ encode (.sharp true 0#8) = 0x00000105#32 ∧
  (∀ (b : Build) (I : Image) (p : Byte) (x y : Nat), b.wf → (∀ u < b.width, ∀ v < b.height, I u v = p) →
    pixelSharp b I x y = p) ∧
  ∀ (s : State) (t : Byte), s.build.wf → s.mem.wf → Acceptable .sharp s →
    exec (.sharp false t) s = .next (afterAccept (.sharp false t) s) ∧
    (BasesAnswer s → CompletesWith (afterAccept (.sharp false t) s) fun I x y =>
      let sharp := fun (c : Chan) (hi : Int) =>
        let w := fun i j => ((window s.build I c x y i j : Nat) : Int)
        (min (max (5 * w 1 1 - w 1 0 - w 0 1 - w 2 1 - w 1 2) 0) hi).toNat
      enc (sharp .red 7) (sharp .green 7) (sharp .blue 3))

/-- R80: SOBEL. Its words; the corner cases: the magnitude does not depend on the sign of a kernel or on which of the two is
which, it is at most 6 times the channel's maximum, the clamp never changes a value, an image of one value, a 1 × 1 image
among them, gives 0; and the command's run: per channel the sum of the absolute gradients, divided by 8. -/
def Obligations.SobelIsTheScaledGradient : Prop :=
  encode (.sobel false 0#8) = 0x00000006#32 ∧ encode (.sobel true 0#8) = 0x00000106#32 ∧
  (∀ w : Nat → Nat → Nat,
    sobelMagnitude (kernelSobelX.map (·.map (-·))) kernelSobelY w = sobelMagnitude kernelSobelX kernelSobelY w ∧
    sobelMagnitude kernelSobelX (kernelSobelY.map (·.map (-·))) w = sobelMagnitude kernelSobelX kernelSobelY w ∧
    sobelMagnitude kernelSobelY kernelSobelX w = sobelMagnitude kernelSobelX kernelSobelY w) ∧
  (∀ (b : Build) (I : Image) (x y : Nat) (c : Chan),
    sobelMagnitude kernelSobelX kernelSobelY (window b I c x y) ≤ 6 * c.max ∧
    sobelChan b I x y c = sobelMagnitude kernelSobelX kernelSobelY (window b I c x y) / 8) ∧
  (∀ (b : Build) (I : Image) (p : Byte) (x y : Nat), b.wf → (∀ u < b.width, ∀ v < b.height, I u v = p) →
    pixelSobel b I x y = 0x00#8) ∧
  ∀ (s : State) (t : Byte), s.build.wf → s.mem.wf → Acceptable .sobel s →
    exec (.sobel false t) s = .next (afterAccept (.sobel false t) s) ∧
    (BasesAnswer s → CompletesWith (afterAccept (.sobel false t) s) fun I x y =>
      let sobel := fun (c : Chan) (hi : Nat) =>
        let w := fun i j => ((window s.build I c x y i j : Nat) : Int)
        let gx := (w 2 0 + 2 * w 2 1 + w 2 2) - (w 0 0 + 2 * w 0 1 + w 0 2)
        let gy := (w 0 2 + 2 * w 1 2 + w 2 2) - (w 0 0 + 2 * w 1 0 + w 2 0)
        min ((gx.natAbs + gy.natAbs) / 8) hi
      enc (sobel .red 7) (sobel .green 7) (sobel .blue 3))

/-- R76, R77: every sample clamps each coordinate to the image, and a sample inside the image is the pixel itself; at each of the
four corners of a blurred image the corner pixel counts 4 times, each edge neighbour 2 times, the diagonal one once. -/
def Obligations.WindowsReplicateTheBorder : Prop :=
  (∀ (b : Build) (I : Image) (c : Chan) (x y i j : Nat),
    window b I c x y i j =
      chan c (I (min (max ((x : Int) + i - 1) 0) ((b.width : Int) - 1)).toNat
        (min (max ((y : Int) + j - 1) 0) ((b.height : Int) - 1)).toNat)) ∧
  (∀ (b : Build) (I : Image) (c : Chan) (x y i j : Nat), 1 ≤ x + i → x + i ≤ b.width → 1 ≤ y + j → y + j ≤ b.height →
    window b I c x y i j = chan c (I (x + i - 1) (y + j - 1))) ∧
  (∀ (b : Build) (I : Image) (c : Chan) (x x' y y' : Nat), 2 ≤ b.width → 2 ≤ b.height →
    (x = 0 ∧ x' = 1) ∨ (x + 1 = b.width ∧ x' + 2 = b.width) → (y = 0 ∧ y' = 1) ∨ (y + 1 = b.height ∧ y' + 2 = b.height) →
    chan c (pixelBlur b I x y) =
      (4 * chan c (I x y) + 2 * chan c (I x' y) + 2 * chan c (I x y') + chan c (I x' y')) / 9)

/-- R72: in this build the two forms of Invert agree on every byte, and they are two commands with two codes. -/
def Obligations.InvcEqualsInvb : Prop :=
  (∀ p : Byte, invc p = invb p) ∧ ∀ (n : Bool) (t : Byte), encode (.invc n t) ≠ encode (.invb n t)

/-- R57, R60: a command with `NULLDST = 1` completes at its acceptance, from every idle state and whatever the base registers
hold: `DONE` set, `BUSY` and memory untouched. -/
def Obligations.NullDestinationCompletesAtOnce : Prop :=
  ∀ (i : Instr) (s : State), i.nulldst = true → s.blk.busy = false → exec i s = .next (afterNull i s)

/-- R55, R88: while a command runs every command and every other `CMD` word is refused with ERR_BUSY, and the refusal does not
disturb the run: the engine's next step does the same before and after it. The model's choice in that comparison of two runs: at equal
ticks both draw the same free value for an open output (log 5) and the same optional read that stalls (log 7). -/
def Obligations.BusyRefusalDoesNotDisturbTheRun : Prop :=
  ∀ s : State, s.blk.busy = true →
    (∀ i : Instr, exec i s = .next (afterBusyRefusal s)) ∧
    (∀ v : Word, regWrite 0x00 v s = .next (afterBusyRefusal s)) ∧
    engineStep (afterBusyRefusal s) = (engineStep s).map afterBusyRefusal

/-- R56 tests 4 and 5, R84: every command whose region passes the top of the address space is refused with ERR_RANGE, and else
every one whose regions overlap, unless it is a point filter on one region, with ERR_OVERLAP. -/
def Obligations.BadRegionsAreRefused : Prop :=
  ∀ (i : Instr) (s : State), s.blk.busy = false → i.nulldst = false →
    let n := s.build.pixels
    let sb := s.blk.srcBase.toNat
    let db := s.blk.dstBase.toNat
    (sb + n > s.build.space ∨ db + n > s.build.space → exec i s = .next (afterIdleRefusal 4#4 s)) ∧
    (sb + n ≤ s.build.space → db + n ≤ s.build.space → sb < db + n → db < sb + n →
      ¬(i.op.isPoint = true ∧ sb = db) → exec i s = .next (afterIdleRefusal 5#4 s))

/-- R101: a command that passes every check and whose regions cover memory with side effects is refused by the model, and that is
the only way in which a command does not answer a next state (log 10). -/
def Obligations.OnlySideEffectRegionsAreRefused : Prop :=
  ∀ (i : Instr) (s : State),
    (s.blk.busy = false → i.nulldst = false → RegionsOk s.build i.op s.blk.srcBase.toNat s.blk.dstBase.toNat →
      0 < s.build.pixels → ¬(PlainRegion s.build s.blk.srcBase.toNat ∧ PlainRegion s.build s.blk.dstBase.toNat) →
        exec i s = .refused .deviceRegion) ∧
    (∀ f, exec i s ≠ .fault f) ∧
    (∀ r, exec i s = .refused r → r = .deviceRegion ∧ s.blk.busy = false ∧ i.nulldst = false ∧
      ¬(PlainRegion s.build s.blk.srcBase.toNat ∧ PlainRegion s.build s.blk.dstBase.toNat))

/-- R55, R57, R83: what a `CMD` write leaves alone, for all eight commands, accepted or refused: memory, the base registers, the
codec registers, the build, the other agents; and while busy every register but `ERR` and `ERRCODE`. -/
def Obligations.CommandWriteFrame : Prop :=
  ∀ (i : Instr) (s t : State), exec i s = .next t →
    t.mem = s.mem ∧ t.build = s.build ∧ t.outside = s.outside ∧ t.tick = s.tick ∧
    t.blk.srcBase = s.blk.srcBase ∧ t.blk.dstBase = s.blk.dstBase ∧ t.blk.codecPix = s.blk.codecPix ∧
    t.blk.codecR = s.blk.codecR ∧ t.blk.codecG = s.blk.codecG ∧ t.blk.codecB = s.blk.codecB ∧
    (t.blk.err = true → t.blk.cmd = s.blk.cmd ∧ t.blk.latOp = s.blk.latOp ∧ t.blk.latThresh = s.blk.latThresh ∧
      t.blk.src = s.blk.src ∧ t.blk.dst = s.blk.dst ∧ t.blk.prog = s.blk.prog ∧ t.blk.busy = s.blk.busy) ∧
    (s.blk.busy = true → t.blk.done = s.blk.done ∧ t.blk.busy = true ∧ t.dirty = s.dirty)

/-- R58, R59, R100: the engine has no step while idle. While a command runs in answering memory it has one: it writes the byte
at `dst + prog` and no other, moves `prog` on, and completes the command with the last pixel. The byte is the command's image
function of the source as memory holds it, or, where another agent wrote a byte that it reads, a free value. That clause is the
model's choice: the form of the free value (log 5), and that SOBEL's optional centre counts among the reads (log 6). -/
def Obligations.EngineStepWritesOnePixel : Prop :=
  ∀ s : State, (s.blk.busy = false → engineStep s = none) ∧
    ∀ op, s.blk.busy = true → Op.ofCode s.blk.latOp = some op → s.build.wf → s.mem.wf → s.blk.prog < s.build.pixels →
      RunAnswers s →
      let x := s.blk.prog % s.build.width
      let y := s.blk.prog / s.build.width
      let reads := (mayDependOn s.build op x y).map fun q => pixaddr s.build s.blk.src.toNat q.1 q.2
      ∃ t, engineStep s = some t ∧ t.build = s.build ∧ t.outside = s.outside ∧ t.dirty = s.dirty ∧
        (∀ a, a ≠ s.blk.dst.toNat + s.blk.prog → t.mem.read a = s.mem.read a) ∧
        ((∀ a ∈ reads, a ∉ s.dirty) → t.mem.read (s.blk.dst.toNat + s.blk.prog) =
          pixel s.build op s.blk.latThresh (imageAt s.build s.mem s.blk.src.toNat) x y) ∧
        ((∃ a ∈ reads, a ∈ s.dirty) → t.mem.read (s.blk.dst.toNat + s.blk.prog) = Config.freeByte s.tick) ∧
        t.blk = if s.blk.prog + 1 = s.build.pixels then completedBlock s.build.pixels s.blk
          else { s.blk with prog := s.blk.prog + 1 }

/-- R36, R37, R62: where the output byte or a source byte the pixel must read does not answer, the engine has no step. Whatever the
host and the other masters do, every step but reset leaves `BUSY`, the accepted word, the latched operands and `prog` as they
were and the engine without a step, and so does every run without a reset among its turns. With no turn listed and a host with
nothing to do (log 3, log 8) nothing ever moves again. -/
def Obligations.UnansweredEngineIsStuckForGood : Prop :=
  ∀ (s : State) (op : Op), s.blk.busy = true → Op.ofCode s.blk.latOp = some op → Unanswered s op →
    engineStep s = none ∧ engineTurn s = s ∧
    (∀ t, nextTurn s ≠ .reset → step s = .next t → SameRun s t ∧ engineStep t = none) ∧
    (∀ n t, .reset ∉ s.outside.sched → run n s = .next t → SameRun s t ∧ engineStep t = none) ∧
    (s.outside.program = [] → s.outside.sched = [] → ∀ n, run n s = .next s)

/-- R33, R89: every address the engine forms in a reachable run lies in the source or the destination region, and so inside the
address space. -/
def Obligations.EngineStaysInItsRegions : Prop :=
  ∀ (s : State) (op : Op), MachineInv s → s.blk.busy = true → Op.ofCode s.blk.latOp = some op →
    let x := s.blk.prog % s.build.width
    let y := s.blk.prog / s.build.width
    s.blk.prog < s.build.pixels ∧
    s.blk.dst.toNat + s.blk.prog = pixaddr s.build s.blk.dst.toNat x y ∧
    s.blk.dst.toNat + s.blk.prog < s.blk.dst.toNat + s.build.pixels ∧
    s.blk.dst.toNat + s.build.pixels ≤ s.build.space ∧ s.blk.src.toNat + s.build.pixels ≤ s.build.space ∧
    ∀ q ∈ mayDependOn s.build op x y,
      s.blk.src.toNat ≤ pixaddr s.build s.blk.src.toNat q.1 q.2 ∧
      pixaddr s.build s.blk.src.toNat q.1 q.2 < s.blk.src.toNat + s.build.pixels

/-- R41 item 2, R96, R97: after `k` engine steps of an accepted command the first `k` destination bytes, in row-major order, hold
the results and the others what they held; reset then leaves memory so and every register of the block at 0. -/
def Obligations.InterruptedRunLeavesARowMajorPrefix : Prop :=
  ∀ (i : Instr) (s : State) (k : Nat), s.build.wf → s.mem.wf → Acceptable i.op s → BasesAnswer s → k ≤ s.build.pixels →
    ∃ u, engineRun k (afterAccept i s) = some u ∧ u.blk.prog = k ∧ (k < s.build.pixels → u.blk.busy = true) ∧
      (∀ j < s.build.pixels, u.mem.read (s.blk.dstBase.toNat + j) =
        if j < k then pixel s.build i.op i.thresh (imageAt s.build s.mem s.blk.srcBase.toNat)
            (j % s.build.width) (j / s.build.width)
        else s.mem.read (s.blk.dstBase.toNat + j)) ∧
      (∀ a, (a < s.blk.dstBase.toNat ∨ s.blk.dstBase.toNat + s.build.pixels ≤ a) → u.mem.read a = s.mem.read a) ∧
      takeTurn .reset u = .next (resetBlock u) ∧ (resetBlock u).mem = u.mem ∧ (resetBlock u).blk = Block.reset

/-- R46, R62: a command that the host writes to `CMD` while no other agent moves (no turn listed, log 3) is, in exactly `N + 1` steps
of the machine, one transition: `BUSY = 0`, `DONE = 1`, the destination region holds the command's image function of the source image, and no
other byte has changed. -/
def Obligations.CommandIsOneAtomicTransition : Prop :=
  ∀ (i : Instr) (s : State) (rest : List HostOp), s.build.wf → s.mem.wf → i.nulldst = false → Acceptable i.op s →
    BasesAnswer s → s.outside.program = opWR .cmd (encode i) :: rest → s.outside.sched = [] →
    ∃ u, run (s.build.pixels + 1) s = .next u ∧
      u.blk = completedBlock s.build.pixels (afterAccept i s).blk ∧ u.build = s.build ∧
      u.outside = { s.outside with program := rest } ∧
      HoldsImage s.build s.mem u.mem s.blk.srcBase.toNat s.blk.dstBase.toNat (pixel s.build i.op i.thresh)

/-- R54, R98: the host's `FILTER` sequence, from any idle state, with no other agent moving (no turn listed, log 3): it is over after `N + 4` steps, with
the status word showing `DONE` alone and the filtered image at the destination. -/
def Obligations.FilterSequenceFiltersTheImage : Prop :=
  ∀ (i : Instr) (s : State) (src dst : Word) (rest : List HostOp), s.build.wf → s.mem.wf → s.blk.busy = false →
    i.nulldst = false → RegionsOk s.build i.op src.toNat dst.toNat →
    PlainRegion s.build src.toNat → PlainRegion s.build dst.toNat →
    AnsweringRegion s.build src.toNat → AnsweringRegion s.build dst.toNat →
    s.outside.program = opsFILTER i src dst ++ rest → s.outside.sched = [] →
    ∃ u, run (s.build.pixels + 4) s = .next u ∧
      u.outside = { s.outside with program := rest } ∧ u.build = s.build ∧
      regValue u Reg.status.offset = 0x00000002#32 ∧ regValue u Reg.cmd.offset = encode i ∧
      regValue u Reg.srcBase.offset = src ∧ regValue u Reg.dstBase.offset = dst ∧
      u.blk.codecPix = s.blk.codecPix ∧ u.blk.codecR = s.blk.codecR ∧ u.blk.codecG = s.blk.codecG ∧
      u.blk.codecB = s.blk.codecB ∧
      HoldsImage s.build s.mem u.mem src.toNat dst.toNat (pixel s.build i.op i.thresh)

/-- R47, the first of its two ways: two `FILTER` sequences, from `A` to `B` and from `B` to `C`, with no turn listed (log 3), leave `G(F(A))` at `C`. -/
def Obligations.FilterSequencesCompose : Prop :=
  ∀ (i j : Instr) (s : State) (a b c : Word) (rest : List HostOp), s.build.wf → s.mem.wf → s.blk.busy = false →
    i.nulldst = false → j.nulldst = false →
    RegionsOk s.build i.op a.toNat b.toNat → RegionsOk s.build j.op b.toNat c.toNat →
    (∀ base ∈ [a.toNat, b.toNat, c.toNat], PlainRegion s.build base ∧ AnsweringRegion s.build base) →
    s.outside.program = opsFILTER i a b ++ (opsFILTER j b c ++ rest) → s.outside.sched = [] →
    ∃ u, run (2 * s.build.pixels + 8) s = .next u ∧ u.outside.program = rest ∧
      ∀ x < s.build.width, ∀ y < s.build.height,
        u.mem.read (pixaddr s.build c.toNat x y) =
          pixel s.build j.op j.thresh (pixel s.build i.op i.thresh (imageAt s.build s.mem a.toNat)) x y

/-- R47: in a reachable run whose two regions are not one, the engine's step leaves every byte of the source region as it is. -/
def Obligations.EngineNeverWritesItsSource : Prop :=
  ∀ s t : State, MachineInv s → s.blk.busy = true → s.blk.src ≠ s.blk.dst → engineStep s = some t →
    ∀ k < s.build.pixels, t.mem.read (s.blk.src.toNat + k) = s.mem.read (s.blk.src.toNat + k)

/-- R103, R18, R19, R28: a write of a base register is stored whether the block is busy or not, and does not redirect the running
command: the engine's step does the same before and after it. The model's choice in that comparison of two runs: at equal
ticks both draw the same free value for an open output (log 5) and the same optional read that stalls (log 7). -/
def Obligations.BaseWritesDoNotRedirectTheRun : Prop :=
  ∀ (s : State) (v : Word), s.build.wf →
    (∃ t, regWrite 0x04 v s = .next t ∧ t = { s with blk := { s.blk with srcBase := t.blk.srcBase } } ∧
      (regValue t 0x04).toNat = v.toNat % 2 ^ s.build.addrBits ∧
      engineStep t = (engineStep s).map fun u => { u with blk := { u.blk with srcBase := t.blk.srcBase } }) ∧
    (∃ t, regWrite 0x08 v s = .next t ∧ t = { s with blk := { s.blk with dstBase := t.blk.dstBase } } ∧
      (regValue t 0x08).toNat = v.toNat % 2 ^ s.build.addrBits ∧
      engineStep t = (engineStep s).map fun u => { u with blk := { u.blk with dstBase := t.blk.dstBase } })

/-- R100: a write of a source byte by another agent while a command runs lands in memory and makes open every not yet written
output byte whose reads include it: when its turn comes, the engine writes a free value there, whichever that is. The form of the free value is the model's choice
(log 5), and so is the reading that SOBEL's optional centre counts among an output's reads (log 6). -/
def Obligations.SourceWriteOpensDependentOutputs : Prop :=
  (∀ (s : State) (a : Nat) (v : Byte), s.mem.wf → answers s.build a = true → isDevice s.build a = false →
    ∃ t, outsideWrite a v s = .next t ∧ t.mem.read a = v ∧ (∀ c ≠ a, t.mem.read c = s.mem.read c) ∧
      t.blk = s.blk ∧ t.build = s.build ∧ t.outside = s.outside ∧ t.tick = s.tick ∧
      ∀ c, c ∈ t.dirty ↔ c ∈ s.dirty ∨
        (c = a ∧ s.blk.busy = true ∧ s.blk.src.toNat ≤ a ∧ a < s.blk.src.toNat + s.build.pixels)) ∧
  (∀ (s u : State) (op : Op), s.mem.wf → Op.ofCode s.blk.latOp = some op → engineStep s = some u →
    (∃ q ∈ mayDependOn s.build op (s.blk.prog % s.build.width) (s.blk.prog / s.build.width),
      pixaddr s.build s.blk.src.toNat q.1 q.2 ∈ s.dirty) →
    u.mem.read (s.blk.dst.toNat + s.blk.prog) = Config.freeByte s.tick)

/-- R100: a write of a destination byte by another agent while a command runs on two regions: where the engine has already written
that pixel the other write stands at the end of the run, else the engine's pixel does. -/
def Obligations.DestinationWriteIsARace : Prop :=
  ∀ (s t u : State) (op : Op) (k : Nat) (v : Byte), MachineInv s → s.blk.busy = true → Op.ofCode s.blk.latOp = some op →
    s.blk.src ≠ s.blk.dst → s.dirty = [] → k < s.build.pixels →
    outsideWrite (s.blk.dst.toNat + k) v s = .next t → engineRun (s.build.pixels - s.blk.prog) t = some u →
    u.blk.busy = false ∧ u.blk.done = true ∧
    u.mem.read (s.blk.dst.toNat + k) =
      if k < s.blk.prog then v
      else pixel s.build op s.blk.latThresh (imageAt s.build s.mem s.blk.src.toNat)
        (k % s.build.width) (k / s.build.width)

/-- R21, R22, R65, R104: writing `CODEC_PIX` stores the low byte and nothing else, busy or not, and `CODEC_DEC` read right after it
holds the three channels of that byte. -/
def Obligations.CodecRegistersDecode : Prop :=
  ∀ (s : State) (v : Word), ∃ t, regWrite 0x10 v s = .next t ∧
    t = { s with blk := { s.blk with codecPix := t.blk.codecPix } } ∧
    (regValue t 0x10).toNat = v.toNat % 256 ∧
    (regValue t 0x14).toNat =
      v.toNat % 256 / 32 + v.toNat % 32 / 4 * 0x100 + v.toNat % 4 * 0x10000

/-- R23, R24, R66, R104: writing `CODEC_CH` stores the three bytes unmasked and nothing else, busy or not, and `CODEC_ENC` read right
after it holds the packed pixel of the masked channels. -/
def Obligations.CodecRegistersEncode : Prop :=
  ∀ (s : State) (v : Word), ∃ t, regWrite 0x18 v s = .next t ∧
    t = { s with blk := { s.blk with codecR := t.blk.codecR, codecG := t.blk.codecG, codecB := t.blk.codecB } } ∧
    (regValue t 0x18).toNat = v.toNat % 0x1000000 ∧
    (regValue t 0x1C).toNat = v.toNat % 8 * 32 + v.toNat / 0x100 % 8 * 4 + v.toNat / 0x10000 % 4

/-- R67, R68: decoding an encoded triple gives each channel modulo its range, for all triples; encoding a decoded byte gives the
byte back; and `dec` is a bijection from the bytes onto the legal triples. -/
def Obligations.CodecRoundTrips : Prop :=
  (∀ r g b : Nat, dec (enc r g b) = (r % 8, g % 8, b % 4) ∧ dec (enc r g b) = (r &&& 7, g &&& 7, b &&& 3)) ∧
  (∀ p : Byte, enc (dec p).1 (dec p).2.1 (dec p).2.2 = p) ∧
  Function.Injective dec ∧ Set.range dec = {c | c.1 ≤ 7 ∧ c.2.1 ≤ 7 ∧ c.2.2 ≤ 3}

/-- R20: the layout of `STATUS`, and its write: bit 1 clears `DONE`, bit 2 clears `ERR` and `ERRCODE`, and nothing else changes. -/
def Obligations.StatusWriteClears : Prop :=
  ∀ (s : State) (v : Word),
    (regValue s 0x0C).toNat =
      s.blk.busy.toNat + 2 * s.blk.done.toNat + 4 * s.blk.err.toNat + 16 * s.blk.errcode.toNat ∧
    ∃ t, regWrite 0x0C v s = .next t ∧
      t = { s with blk := { s.blk with done := t.blk.done, err := t.blk.err, errcode := t.blk.errcode } } ∧
      t.blk.done = (if v.getLsbD 1 then false else s.blk.done) ∧
      t.blk.err = (if v.getLsbD 2 then false else s.blk.err) ∧
      t.blk.errcode = (if v.getLsbD 2 then 0#4 else s.blk.errcode)

/-- R22, R24, R25, R26, R16: writes of the read-only registers and of the reserved offsets are ignored, the reserved offsets read 0,
and `PARAM` reads `W` and `H`, in every state. -/
def Obligations.ReadOnlyAndReservedOffsets : Prop :=
  ∀ (s : State) (v : Word), s.build.wf →
    (∀ off ∈ [0x14, 0x1C, 0x20, 0x24, 0x28, 0x2C, 0x30, 0x34, 0x38, 0x3C], regWrite off v s = .next s) ∧
    (∀ off ∈ [0x24, 0x28, 0x2C, 0x30, 0x34, 0x38, 0x3C], regValue s off = 0#32) ∧
    (regValue s 0x20).toNat = s.build.width + s.build.height * 0x10000

/-- R15, R20: an aligned register read by the host returns the register's word and changes nothing of the block or of memory. -/
def Obligations.RegisterReadsChangeNothing : Prop :=
  ∀ (s : State) (off : Nat) (rest : List HostOp), off < 64 → off % 4 = 0 → nextTurn s = .host →
    s.outside.program = .rd off :: rest →
    step s = .next { s with outside := { s.outside with
      program := rest, sched := s.outside.sched.tail, words := regValue s off :: s.outside.words } }

/-- R15, R34: only an aligned access of one word inside the window is defined. Every other access to the window, by offset (a write,
a read or a `POLL`) or by platform address, is refused; an aligned `POLL` reads its register once and is over when the field has
the value (log 12); a defined access by platform address is the access at its offset, its word assembled in the platform's byte order
(log 20); an access by platform address outside the window is no access to the block (log 11). -/
def Obligations.OnlyAlignedWordsReachTheRegisters : Prop :=
  ∀ s : State,
    (∀ off v, ¬(off < 64 ∧ off % 4 = 0) → hostOp (.wr off v) s = .refused .registerAccess) ∧
    (∀ off, ¬(off < 64 ∧ off % 4 = 0) → hostOp (.rd off) s = .refused .registerAccess) ∧
    (∀ off lo width v, ¬(off < 64 ∧ off % 4 = 0) → hostOp (.poll off lo width v) s = .refused .registerAccess) ∧
    (∀ off lo width v, off < 64 → off % 4 = 0 → hostOp (.poll off lo width v) s = .next
      (if (regValue s off).toNat / 2 ^ lo % 2 ^ width = v
        then { s with outside := { s.outside with program := s.outside.program.tail } } else s)) ∧
    (∀ addr bytes, addr < s.build.engineBase + 64 → s.build.engineBase < addr + bytes.length →
      ¬(s.build.engineBase ≤ addr ∧ (addr - s.build.engineBase) % 4 = 0 ∧ bytes.length = 4) →
      hostOp (.busWr addr bytes) s = .refused .registerAccess) ∧
    (∀ addr size, addr < s.build.engineBase + 64 → s.build.engineBase < addr + size →
      ¬(s.build.engineBase ≤ addr ∧ (addr - s.build.engineBase) % 4 = 0 ∧ size = 4) →
      hostOp (.busRd addr size) s = .refused .registerAccess) ∧
    (∀ off, off < 64 → off % 4 = 0 → ∀ b0 b1 b2 b3 : Byte,
      hostOp (.busWr (s.build.engineBase + off) [b0, b1, b2, b3]) s =
        hostOp (.wr off (match s.build.regByteOrder with
          | .little => b3 ++ b2 ++ b1 ++ b0
          | .big => b0 ++ b1 ++ b2 ++ b3)) s ∧
      hostOp (.busRd (s.build.engineBase + off) 4) s = hostOp (.rd off) s) ∧
    (∀ addr bytes, (addr + bytes.length ≤ s.build.engineBase ∨ s.build.engineBase + 64 ≤ addr) →
      hostOp (.busWr addr bytes) s = .next { s with outside :=
        { s.outside with program := s.outside.program.tail } }) ∧
    (∀ addr size, (addr + size ≤ s.build.engineBase ∨ s.build.engineBase + 64 ≤ addr) →
      hostOp (.busRd addr size) s = .next { s with outside :=
        { s.outside with program := s.outside.program.tail } })

/-- R105: a host that polls `DONE` of an idle block that has not completed anything, as after a refused command, waits for ever (no turn listed, log 3). -/
def Obligations.PollingDoneAfterARefusalSpins : Prop :=
  ∀ (s : State) (rest : List HostOp), s.blk.busy = false → s.blk.done = false → s.outside.sched = [] →
    s.outside.program = opPollDone 1 :: rest → ∀ n, run n s = .next s

/-- R96: the step in which reset comes puts every register of the block at 0, whatever the state, and leaves memory and the build;
every register then reads 0 but `PARAM`. Power-up leaves the same registers. -/
def Obligations.ResetClearsTheBlock : Prop :=
  ∀ s : State, nextTurn s = .reset → ∃ t, step s = .next t ∧
    t.blk = ⟨0#32, 0#32, 0#32, false, false, false, 0#4, 0#8, 0#8, 0#8, 0#8, 0#4, 0#8, 0#32, 0#32, 0⟩ ∧
    t.mem = s.mem ∧ t.build = s.build ∧
    (∀ off ∈ [0x00, 0x04, 0x08, 0x0C, 0x10, 0x14, 0x18, 0x1C], regValue t off = 0#32) ∧
    regValue t 0x20 = regValue s 0x20 ∧ (∀ b : Build, (State.resetOf b).blk = t.blk)

/-- R96, R89: the invariant holds right after reset, on every legal build (log 1), and the machine's own reset state is that of one. -/
def Obligations.ResetStateMeetsTheInvariant : Prop :=
  (∀ b : Build, b.wf → MachineInv (State.resetOf b)) ∧ ∃ b : Build, b.wf ∧ State.reset = State.resetOf b

/-- R89, R18, R20, R28, R29, R33, R82: every step of every agent keeps the invariant, from every state that meets it. -/
def Obligations.EveryStepKeepsTheInvariant : Prop :=
  ∀ s t : State, MachineInv s → step s = .next t → MachineInv t

/-- R25, R30: no step changes a build parameter, so `PARAM` is constant, across reset too. -/
def Obligations.BuildIsConstant : Prop :=
  ∀ s t : State, step s = .next t → t.build = s.build ∧ regValue t 0x20 = regValue s 0x20

/-- R31, R58, R87, R96: a byte of memory changes in a step only by the engine's pixel, at `dst + prog`, or by a write of the host or
of another master at its own address: no register access and no reset writes memory. -/
def Obligations.MemoryChangesOnlyByItsWriters : Prop :=
  ∀ (s t : State) (a : Nat), s.mem.wf → step s = .next t → t.mem.read a ≠ s.mem.read a →
    (nextTurn s = .engine ∧ s.blk.busy = true ∧ a = s.blk.dst.toNat + s.blk.prog) ∨
    (nextTurn s = .host ∧ ∃ v rest, s.outside.program = .memWr a v :: rest ∧ t.mem.read a = v) ∨
    (∃ v, nextTurn s = .masterWrite a v ∧ t.mem.read a = v)

/-- R27: the only events that set and clear `BUSY`, `DONE` and `ERR`. -/
def Obligations.FlagsChangeOnlyByTheirEvents : Prop :=
  ∀ s t : State, step s = .next t →
    (s.blk.busy = false → t.blk.busy = true →
      ∃ v i, HostWrites s 0x00 v ∧ decode v = .command i ∧ i.nulldst = false) ∧
    (s.blk.busy = true → t.blk.busy = false →
      nextTurn s = .reset ∨ (nextTurn s = .engine ∧ s.blk.prog + 1 = s.build.pixels)) ∧
    (s.blk.done = false → t.blk.done = true →
      (nextTurn s = .engine ∧ s.blk.busy = true ∧ s.blk.prog + 1 = s.build.pixels) ∨
      ∃ v i, HostWrites s 0x00 v ∧ decode v = .command i ∧ i.nulldst = true) ∧
    (s.blk.done = true → t.blk.done = false →
      nextTurn s = .reset ∨ (∃ v, HostWrites s 0x0C v ∧ v.getLsbD 1 = true) ∨
        (s.blk.busy = false ∧ ∃ v, HostWrites s 0x00 v)) ∧
    (s.blk.err = false → t.blk.err = true → ∃ v, HostWrites s 0x00 v) ∧
    (s.blk.err = true → t.blk.err = false →
      nextTurn s = .reset ∨ (∃ v, HostWrites s 0x0C v ∧ v.getLsbD 2 = true) ∨
        (s.blk.busy = false ∧ ∃ v, HostWrites s 0x00 v))

/-- R85: the host's clearing of `DONE` against the engine's last pixel, and a `CMD` write against it, in both orders: `DONE` ends 1 if
the engine comes second and 0 if it comes first. A `CMD` write of any word is refused with ERR_BUSY if it comes first; if it comes
second it finds `BUSY = 0` and is handled as any idle write: a null-destination command completes, and one with a destination
that passes the checks is accepted and runs. The model's choice in the host-first orders, which compare two runs of the last
pixel: at equal ticks both draw the same free value for an open output (log 5) and the same optional read that stalls (log 7). -/
def Obligations.LastPixelAgainstTheHostInBothOrders : Prop :=
  ∀ (s u : State) (rest : List HostOp) (more : List Turn), s.blk.busy = true → s.blk.prog + 1 = s.build.pixels →
    engineStep s = some u →
    (s.outside.program = opWR .status 0x2#32 :: rest →
      (s.outside.sched = .host :: .engine :: more →
        ∃ t, run 2 s = .next t ∧ t.blk.done = true ∧ t.blk.busy = false ∧ t.mem = u.mem) ∧
      (s.outside.sched = .engine :: .host :: more →
        ∃ t, run 2 s = .next t ∧ t.blk.done = false ∧ t.blk.busy = false ∧ t.mem = u.mem)) ∧
    (∀ v : Word, s.outside.program = opWR .cmd v :: rest →
      (s.outside.sched = .host :: .engine :: more →
        ∃ t, run 2 s = .next t ∧ t.blk.err = true ∧ t.blk.errcode = 1#4 ∧
          t.blk.cmd = s.blk.cmd ∧ t.blk.done = true ∧ t.blk.busy = false ∧ t.mem = u.mem) ∧
      (s.outside.sched = .engine :: .host :: more →
        u.blk.busy = false ∧ u.blk.done = true ∧
        run 2 s = regWrite 0x00 v { u with outside := { s.outside with program := rest, sched := more } })) ∧
    (∀ i : Instr, s.outside.program = opWR .cmd (encode i) :: rest → s.outside.sched = .engine :: .host :: more →
      (i.nulldst = true →
        ∃ t, run 2 s = .next t ∧ t.blk.err = false ∧ t.blk.errcode = 0#4 ∧
          t.blk.cmd = encode i ∧ t.blk.done = true ∧ t.blk.busy = false ∧ t.mem = u.mem) ∧
      (i.nulldst = false → RegionsOk s.build i.op s.blk.srcBase.toNat s.blk.dstBase.toNat →
        PlainRegion s.build s.blk.srcBase.toNat → PlainRegion s.build s.blk.dstBase.toNat →
        ∃ t, run 2 s = .next t ∧ t.blk.err = false ∧ t.blk.errcode = 0#4 ∧ t.blk.done = false ∧ t.blk.busy = true ∧
          t.blk.cmd = encode i ∧ t.blk.latOp = i.op.code ∧ t.blk.latThresh = i.thresh ∧ t.blk.src = s.blk.srcBase ∧
          t.blk.dst = s.blk.dstBase ∧ t.blk.prog = 0 ∧ t.mem = u.mem))

/-- R31, R8, R38 with the model's choices (log 9, log 10): an access of the host or of another master to image memory completes at
an address that exists, answers and is plain memory, and stops by name at every other. -/
def Obligations.OutsideMemoryAccesses : Prop :=
  ∀ (s : State) (a : Nat) (v : Byte),
    (answers s.build a = true → isDevice s.build a = false →
      hostMemRead a s = .next { s with outside := { s.outside with bytes := s.mem.read a :: s.outside.bytes } } ∧
      masterMemRead a s =
        .next { s with outside := { s.outside with masterBytes := s.mem.read a :: s.outside.masterBytes } } ∧
      ∃ t, outsideWrite a v s = .next t ∧ t.mem = s.mem.write a v) ∧
    (s.build.space ≤ a → outsideWrite a v s = .fault .addressOutsideSpace ∧
      hostMemRead a s = .fault .addressOutsideSpace ∧ masterMemRead a s = .fault .addressOutsideSpace) ∧
    (a < s.build.space → answers s.build a = false → outsideWrite a v s = .fault .noAnswer ∧
      hostMemRead a s = .fault .noAnswer ∧ masterMemRead a s = .fault .noAnswer) ∧
    (answers s.build a = true → isDevice s.build a = true → outsideWrite a v s = .refused .deviceAccess ∧
      hostMemRead a s = .refused .deviceAccess ∧ masterMemRead a s = .refused .deviceAccess)
end

