-- ==== Sys2Proof/Laws/Codec.lean ====
section
/-! SUPPORT. The codec as arithmetic on numbers: each channel a quotient and a remainder, the packed pixel a sum. -/

namespace Sys2Proof.Machine

@[simp] theorem Chan.max_red : Chan.max .red = 7 := rfl
@[simp] theorem Chan.max_green : Chan.max .green = 7 := rfl
@[simp] theorem Chan.max_blue : Chan.max .blue = 3 := rfl

/-- Masking with `2^k - 1` is the remainder by `2^k`, for the two widths of this build. -/
theorem and_seven (n : Nat) : n &&& 7 = n % 8 := Nat.and_two_pow_sub_one_eq_mod n 3
theorem and_three (n : Nat) : n &&& 3 = n % 4 := Nat.and_two_pow_sub_one_eq_mod n 2

/-- The three channels (R65) as quotients and remainders. -/
theorem chan_red (p : Byte) : chan .red p = p.toNat / 32 := by
  have := p.isLt
  simp only [chan, Chan.pos, Chan.max, Config.rpos, Config.maxR, Config.rbits, Nat.shiftRight_eq_div_pow]
  norm_num [and_seven]
  omega

theorem chan_green (p : Byte) : chan .green p = p.toNat / 4 % 8 := by
  simp only [chan, Chan.pos, Chan.max, Config.gpos, Config.maxG, Config.gbits, Nat.shiftRight_eq_div_pow]
  norm_num [and_seven]

theorem chan_blue (p : Byte) : chan .blue p = p.toNat % 4 := by
  simp only [chan, Chan.pos, Chan.max, Config.bpos, Config.maxB, Config.bbits, Nat.shiftRight_eq_div_pow]
  norm_num [and_three]

/-- A channel is at most its maximum (R63). -/
theorem chan_le (c : Chan) (p : Byte) : chan c p ≤ c.max := Nat.and_le_right

/-- The packed pixel (R66) as a sum of masked channels. -/
theorem enc_toNat (r g b : Nat) : (enc r g b).toNat = r % 8 * 32 + g % 8 * 4 + b % 4 := by
  have h1 : r % 8 < 8 := Nat.mod_lt _ (by norm_num)
  have h2 : g % 8 < 8 := Nat.mod_lt _ (by norm_num)
  have h3 : b % 4 < 4 := Nat.mod_lt _ (by norm_num)
  have : ∀ r < 8, ∀ g < 8, ∀ b < 4, (BitVec.ofNat 8 ((r <<< 5) ||| (g <<< 2) ||| (b <<< 0))).toNat = r * 32 + g * 4 + b := by
    decide
  have := this _ h1 _ h2 _ h3
  simpa [enc, Config.maxR, Config.maxG, Config.maxB, Config.rbits, Config.gbits, Config.bbits, Config.rpos, Config.gpos,
    Config.bpos, and_seven, and_three] using this

/-- Encoding the channels of a byte gives the byte's own fields: bytes with equal channels are equal. -/
theorem byte_ext {p q : Byte} (h : ∀ c, chan c p = chan c q) : p = q := by
  have hr := h .red
  have hg := h .green
  have hb := h .blue
  rw [chan_red, chan_red] at hr
  rw [chan_green, chan_green] at hg
  rw [chan_blue, chan_blue] at hb
  apply BitVec.eq_of_toNat_eq
  omega

/-- A channel of an encoded triple that is in its range is that value. -/
theorem chan_enc {v : Chan → Nat} (h : ∀ c, v c ≤ c.max) (c : Chan) :
    chan c (enc (v .red) (v .green) (v .blue)) = v c := by
  have hr := h .red
  have hg := h .green
  have hb := h .blue
  simp only [Chan.max_red, Chan.max_green, Chan.max_blue] at hr hg hb
  cases c
  · rw [chan_red, enc_toNat]; omega
  · rw [chan_green, enc_toNat]; omega
  · rw [chan_blue, enc_toNat]; omega

end Sys2Proof.Machine
end

