-- ==== Sys2Proof/Laws/Encoding.lean ====
section
/-! SUPPORT. The fields of a command word (R48): what the encoder puts in, the decoder takes out. -/

namespace Sys2Proof

@[simp] theorem Op.instr_op (op : Op) (n : Bool) (t : Byte) : (op.instr n t).op = op := by cases op <;> rfl
@[simp] theorem Op.instr_nulldst (op : Op) (n : Bool) (t : Byte) : (op.instr n t).nulldst = n := by cases op <;> rfl
@[simp] theorem Op.instr_thresh (op : Op) (n : Bool) (t : Byte) : (op.instr n t).thresh = t := by cases op <;> rfl
@[simp] theorem Instr.op_instr (i : Instr) : i.op.instr i.nulldst i.thresh = i := by cases i <;> rfl
@[simp] theorem Op.ofCode_code (op : Op) : Op.ofCode op.code = some op := by cases op <;> rfl

/-- An `OP` value with a mnemonic is that mnemonic's code (R50). -/
theorem Op.code_of_ofCode {c : BitVec 4} {op : Op} (h : Op.ofCode c = some op) : op.code = c := by
  revert op c; decide

/-- The `OP` values without a mnemonic are 0x8 to 0xF (R50). -/
theorem Op.ofCode_eq_none_iff (c : BitVec 4) : Op.ofCode c = none ↔ 8 ≤ c.toNat := by
  revert c; decide

/-- The bits of a command word (R48). -/
theorem getLsbD_cmdWord (c : BitVec 4) (n : Bool) (t : Byte) (i : Nat) :
    (cmdWord c n t).getLsbD i =
      (decide (i < 32) && (c.getLsbD i || (decide (i = 8) && n) || (decide (16 ≤ i) && t.getLsbD (i - 16)))) := by
  by_cases hi : i < 32
  · simp only [cmdWord, BitVec.getLsbD_or, BitVec.getLsbD_setWidth, BitVec.getLsbD_shiftLeft, hi, decide_true,
      Bool.true_and, BitVec.getLsbD_ofBool]
    have h8 : i - 8 < 32 := by omega
    have h16 : i - 16 < 32 := by omega
    interval_cases i <;> simp
  · simp [hi, BitVec.getLsbD_of_ge _ _ (Nat.le_of_not_lt hi)]

theorem opField_cmdWord (c : BitVec 4) (n : Bool) (t : Byte) : opField (cmdWord c n t) = c := by
  apply BitVec.eq_of_getLsbD_eq
  intro i hi
  have h8 : i ≠ 8 := by omega
  have h16 : ¬16 ≤ i := by omega
  simp [opField, getLsbD_cmdWord, hi, h8, h16]
  omega

theorem nulldstField_cmdWord (c : BitVec 4) (n : Bool) (t : Byte) : nulldstField (cmdWord c n t) = n := by
  simp only [nulldstField, getLsbD_cmdWord]
  simp

theorem threshField_cmdWord (c : BitVec 4) (n : Bool) (t : Byte) : threshField (cmdWord c n t) = t := by
  apply BitVec.eq_of_getLsbD_eq
  intro i hi
  have h8 : 16 + i ≠ 8 := by omega
  have h32 : 16 + i < 32 := by omega
  simp only [threshField, BitVec.getLsbD_extractLsb', getLsbD_cmdWord, BitVec.getLsbD_of_ge c (16 + i) (by omega)]
  simp [hi, h8, h32]

theorem reserved_cmdWord (c : BitVec 4) (n : Bool) (t : Byte) : cmdWord c n t &&& reservedMask = 0#32 := by
  apply BitVec.eq_of_getLsbD_eq
  intro i hi
  simp only [BitVec.getLsbD_and, getLsbD_cmdWord, reservedMask]
  interval_cases i <;> simp

/-- A word without reserved bits is the command word of its own fields. -/
theorem cmdWord_fields {v : Word} (h : v &&& reservedMask = 0#32) :
    cmdWord (opField v) (nulldstField v) (threshField v) = v := by
  apply BitVec.eq_of_getLsbD_eq
  intro i hi
  have hb := congrArg (BitVec.getLsbD · i) h
  simp only [BitVec.getLsbD_and, reservedMask] at hb
  simp only [getLsbD_cmdWord, opField, nulldstField, threshField, BitVec.getLsbD_extractLsb']
  interval_cases i <;> simp_all

/-- The words that decode to no command, by cause (R51, R52). -/
theorem decode_refused {v : Word} {e : ErrCode} (h : decode v = .refused e) :
    (v &&& reservedMask ≠ 0#32 ∧ e = .reserved) ∨
      (v &&& reservedMask = 0#32 ∧ 8 ≤ (opField v).toNat ∧ e = .illegalOp) := by
  unfold decode at h
  split_ifs at h with hr
  · left; exact ⟨hr, by simpa using h.symm⟩
  · right
    cases ho : Op.ofCode (opField v) with
    | none => exact ⟨not_not.1 hr, (Op.ofCode_eq_none_iff _).1 ho, by simpa [ho] using h.symm⟩
    | some op => simp [ho] at h

end Sys2Proof
end

