-- ==== Sys2Proof/Laws/Memory.lean ====
section
/-! SUPPORT. Memory: what a read after a write gives, that a write keeps the canonical form, and that a canonical memory
is determined by its reads. -/

namespace Sys2Proof.Machine

@[simp] theorem Memory.read_nil (a : Nat) : Memory.read [] a = Memory.blank := rfl

theorem Memory.wf_nil : Memory.wf [] := by simp [Memory.wf]

theorem Memory.wf_cons_iff (c : Host.Cell) (m : Memory) :
    Memory.wf (c :: m) ↔ (∀ d ∈ m, c.1 < d.1) ∧ c.2 ≠ Memory.blank ∧ Memory.wf m := by
  simp only [Memory.wf, List.pairwise_cons, List.forall_mem_cons]
  tauto

/-- An address below every listed one is not listed. -/
theorem Memory.read_below {m : Memory} {a : Nat} (h : ∀ d ∈ m, a < d.1) : m.read a = Memory.blank := by
  induction m with
  | nil => rfl
  | cons c m ih =>
    have h1 : c.1 ≠ a := (h c (by simp)).ne'
    simpa [Memory.read, h1] using ih fun d hd => h d (by simp [hd])

/-- Every address a write lists was listed before or is the written one. -/
theorem Memory.mem_write {m : Memory} {a : Nat} {v : Byte} {c : Host.Cell} (h : c ∈ m.write a v) :
    c ∈ m ∨ (c = (a, v) ∧ v ≠ Memory.blank) := by
  induction m with
  | nil =>
    by_cases hv : v = Memory.blank <;> simp_all [Memory.write]
  | cons d m ih =>
    unfold Memory.write at h
    split_ifs at h <;> simp_all <;> tauto

/-- A write keeps the canonical form. -/
theorem Memory.write_wf {m : Memory} (h : m.wf) (a : Nat) (v : Byte) : (m.write a v).wf := by
  induction m with
  | nil => by_cases hv : v = Memory.blank <;> simp [Memory.write, Memory.wf, hv]
  | cons d m ih =>
    obtain ⟨h1, h2, h3⟩ := (Memory.wf_cons_iff d m).1 h
    unfold Memory.write
    split_ifs with ha hv hv hv
    · exact h
    · refine (Memory.wf_cons_iff _ _).2 ⟨?_, hv, h⟩
      intro e he
      rcases List.mem_cons.1 he with rfl | he
      · exact ha
      · exact ha.trans (h1 e he)
    · exact h3
    · refine (Memory.wf_cons_iff _ _).2 ⟨?_, hv, h3⟩
      subst a
      exact h1
    · refine (Memory.wf_cons_iff _ _).2 ⟨?_, h2, ih h3⟩
      intro e he
      rcases Memory.mem_write he with he | ⟨rfl, -⟩
      · exact h1 e he
      · show d.1 < a
        omega

/-- A read after a write: the written byte there, every other byte as before. -/
theorem Memory.read_write {m : Memory} (h : m.wf) (a c : Nat) (v : Byte) :
    (m.write a v).read c = if c = a then v else m.read c := by
  induction m with
  | nil =>
    by_cases hv : v = Memory.blank <;> by_cases hc : c = a <;> simp_all [Memory.write, Memory.read, eq_comm]
  | cons d m ih =>
    obtain ⟨h1, h2, h3⟩ := (Memory.wf_cons_iff d m).1 h
    have hb : ∀ e, e ≤ d.1 → Memory.read m e = Memory.blank := fun e he =>
      Memory.read_below fun x hx => lt_of_le_of_lt he (h1 x hx)
    rcases lt_trichotomy a d.1 with ha | ha | ha
    · have hw : Memory.write (d :: m) a v = if v = Memory.blank then d :: m else (a, v) :: d :: m := by
        simp [Memory.write, ha]
      have hd : Memory.read (d :: m) a = Memory.blank := by simp [Memory.read, ha.ne', hb a ha.le]
      rw [hw]
      by_cases hv : v = Memory.blank <;> by_cases hc : c = a
      · subst hc; simp [hv, hd]
      · simp [hv, hc]
      · subst hc; simp [hv, Memory.read]
      · simp [hv, hc, Memory.read, Ne.symm hc]
    · have hw : Memory.write (d :: m) a v = if v = Memory.blank then m else (a, v) :: m := by
        simp [Memory.write, ha]
      rw [hw]
      by_cases hv : v = Memory.blank <;> by_cases hc : c = a
      · subst hc; simp [hv, hb c ha.le]
      · simp [hv, hc, Memory.read, ← ha, Ne.symm hc]
      · subst hc; simp [hv, Memory.read]
      · simp [hv, hc, Memory.read, ← ha, Ne.symm hc]
    · have hw : Memory.write (d :: m) a v = d :: Memory.write m a v := by
        simp [Memory.write, ha.not_gt, ha.ne']
      rw [hw]
      by_cases hc : d.1 = c
      · have hne : c ≠ a := by omega
        simp [Memory.read, hc, hne]
      · simp [Memory.read, hc, ih h3]

theorem Memory.read_write_same {m : Memory} (h : m.wf) (a : Nat) (v : Byte) : (m.write a v).read a = v := by
  simp [Memory.read_write h]

theorem Memory.read_write_other {m : Memory} (h : m.wf) {a c : Nat} (hc : c ≠ a) (v : Byte) :
    (m.write a v).read c = m.read c := by
  simp [Memory.read_write h, hc]

/-- A write lists no address at or above a bound that the old addresses and the written one are below. -/
theorem Memory.write_below {m : Memory} {n a : Nat} (h : ∀ c ∈ m, c.1 < n) (ha : a < n) (v : Byte) :
    ∀ c ∈ m.write a v, c.1 < n := by
  intro c hc
  rcases Memory.mem_write hc with hc | ⟨rfl, -⟩
  · exact h c hc
  · exact ha

/-- Canonical memories that read the same are the same data. -/
theorem Memory.ext_of_read {m m' : Memory} (h : m.wf) (h' : m'.wf) (hr : ∀ a, m.read a = m'.read a) : m = m' := by
  induction m generalizing m' with
  | nil =>
    cases m' with
    | nil => rfl
    | cons d m' =>
      have := hr d.1
      simp only [Memory.read, if_true] at this
      exact absurd this.symm ((Memory.wf_cons_iff _ _).1 h').2.1
  | cons c m ih =>
    cases m' with
    | nil =>
      have := hr c.1
      simp [Memory.read, ((Memory.wf_cons_iff _ _).1 h).2.1] at this
    | cons d m' =>
      obtain ⟨h1, h2, h3⟩ := (Memory.wf_cons_iff _ _).1 h
      obtain ⟨h1', h2', h3'⟩ := (Memory.wf_cons_iff _ _).1 h'
      have hkey : c.1 = d.1 := by
        rcases lt_trichotomy c.1 d.1 with hlt | heq | hgt
        · have := hr c.1
          rw [show Memory.read (d :: m') c.1 = Memory.blank from
            Memory.read_below (by simpa using ⟨hlt, fun a b hb => hlt.trans (h1' (a, b) hb)⟩)] at this
          simp [Memory.read] at this
          exact absurd this h2
        · exact heq
        · have := hr d.1
          rw [show Memory.read (c :: m) d.1 = Memory.blank from
            Memory.read_below (by simpa using ⟨hgt, fun a b hb => hgt.trans (h1 (a, b) hb)⟩)] at this
          simp only [Memory.read, if_true] at this
          exact absurd this.symm h2'
      have hval : c.2 = d.2 := by simpa [Memory.read, hkey] using hr c.1
      have htail : m = m' := ih h3 h3' fun a => by
        by_cases ha : c.1 = a
        · subst ha
          rw [Memory.read_below h1, Memory.read_below (hkey ▸ h1')]
        · have := hr a
          simpa [Memory.read, ha, hkey ▸ ha] using this
      rw [htail, Prod.ext hkey hval]

end Sys2Proof.Machine
end

