-- ==== Sys2Proof/Laws/State.lean ====
section
/-! SUPPORT. One lemma per field per update of the state: no later proof unfolds a record update. -/

namespace Sys2Proof.Machine

variable (s : State)

@[simp] theorem raiseError_build (e : ErrCode) : (raiseError e s).build = s.build := rfl
@[simp] theorem raiseError_blk (e : ErrCode) :
    (raiseError e s).blk =
      { s.blk with err := true, errcode := errorCode e } := rfl
@[simp] theorem raiseError_mem (e : ErrCode) : (raiseError e s).mem = s.mem := rfl
@[simp] theorem raiseError_outside (e : ErrCode) : (raiseError e s).outside = s.outside := rfl
@[simp] theorem raiseError_dirty (e : ErrCode) : (raiseError e s).dirty = s.dirty := rfl
@[simp] theorem raiseError_tick (e : ErrCode) : (raiseError e s).tick = s.tick := rfl

@[simp] theorem resetBlock_build : (resetBlock s).build = s.build := rfl
@[simp] theorem resetBlock_blk : (resetBlock s).blk = Block.reset := rfl
@[simp] theorem resetBlock_mem : (resetBlock s).mem = s.mem := rfl
@[simp] theorem resetBlock_outside : (resetBlock s).outside = s.outside := rfl
@[simp] theorem resetBlock_dirty : (resetBlock s).dirty = [] := rfl
@[simp] theorem resetBlock_tick : (resetBlock s).tick = s.tick + 1 := rfl

@[simp] theorem storeFromOutside_build (a : Nat) (v : Byte) : (storeFromOutside a v s).build = s.build := rfl
@[simp] theorem storeFromOutside_blk (a : Nat) (v : Byte) : (storeFromOutside a v s).blk = s.blk := rfl
@[simp] theorem storeFromOutside_mem (a : Nat) (v : Byte) : (storeFromOutside a v s).mem = s.mem.write a v := rfl
@[simp] theorem storeFromOutside_outside (a : Nat) (v : Byte) : (storeFromOutside a v s).outside = s.outside := rfl
@[simp] theorem storeFromOutside_dirty (a : Nat) (v : Byte) :
    (storeFromOutside a v s).dirty =
      if s.blk.busy && inSourceRegion s a then insertAddr a s.dirty else s.dirty := rfl
@[simp] theorem storeFromOutside_tick (a : Nat) (v : Byte) : (storeFromOutside a v s).tick = s.tick := rfl

@[simp] theorem statusWrite_build (v : Word) : (statusWrite v s).build = s.build := rfl
@[simp] theorem statusWrite_blk (v : Word) :
    (statusWrite v s).blk =
      { s.blk with done := s.blk.done && !v.getLsbD 1, err := s.blk.err && !v.getLsbD 2, errcode := if v.getLsbD 2 then 0#4 else s.blk.errcode } := rfl
@[simp] theorem statusWrite_mem (v : Word) : (statusWrite v s).mem = s.mem := rfl
@[simp] theorem statusWrite_outside (v : Word) : (statusWrite v s).outside = s.outside := rfl
@[simp] theorem statusWrite_dirty (v : Word) : (statusWrite v s).dirty = s.dirty := rfl
@[simp] theorem statusWrite_tick (v : Word) : (statusWrite v s).tick = s.tick := rfl

@[simp] theorem clearStatus_build : (clearStatus s).build = s.build := rfl
@[simp] theorem clearStatus_blk : (clearStatus s).blk = { s.blk with done := false, err := false, errcode := 0#4 } := rfl
@[simp] theorem clearStatus_mem : (clearStatus s).mem = s.mem := rfl
@[simp] theorem clearStatus_outside : (clearStatus s).outside = s.outside := rfl
@[simp] theorem clearStatus_dirty : (clearStatus s).dirty = s.dirty := rfl
@[simp] theorem clearStatus_tick : (clearStatus s).tick = s.tick := rfl

@[simp] theorem completeNull_build : (completeNull s).build = s.build := rfl
@[simp] theorem completeNull_blk : (completeNull s).blk = { s.blk with done := true } := rfl
@[simp] theorem completeNull_mem : (completeNull s).mem = s.mem := rfl
@[simp] theorem completeNull_outside : (completeNull s).outside = s.outside := rfl
@[simp] theorem completeNull_dirty : (completeNull s).dirty = s.dirty := rfl
@[simp] theorem completeNull_tick : (completeNull s).tick = s.tick := rfl

@[simp] theorem startEngine_build : (startEngine s).build = s.build := rfl
@[simp] theorem startEngine_blk : (startEngine s).blk = { s.blk with prog := 0, busy := true } := rfl
@[simp] theorem startEngine_mem : (startEngine s).mem = s.mem := rfl
@[simp] theorem startEngine_outside : (startEngine s).outside = s.outside := rfl
@[simp] theorem startEngine_dirty : (startEngine s).dirty = [] := rfl
@[simp] theorem startEngine_tick : (startEngine s).tick = s.tick := rfl

@[simp] theorem latch_build (op : Op) (n : Bool) (t : Byte) : (latch op n t s).build = s.build := rfl
@[simp] theorem latch_blk (op : Op) (n : Bool) (t : Byte) :
    (latch op n t s).blk =
      { s.blk with cmd := cmdWord op.code n t, latOp := op.code, latThresh := t, src := s.blk.srcBase, dst := s.blk.dstBase } := rfl
@[simp] theorem latch_mem (op : Op) (n : Bool) (t : Byte) : (latch op n t s).mem = s.mem := rfl
@[simp] theorem latch_outside (op : Op) (n : Bool) (t : Byte) : (latch op n t s).outside = s.outside := rfl
@[simp] theorem latch_dirty (op : Op) (n : Bool) (t : Byte) : (latch op n t s).dirty = s.dirty := rfl
@[simp] theorem latch_tick (op : Op) (n : Bool) (t : Byte) : (latch op n t s).tick = s.tick := rfl

@[simp] theorem writeSrcBase_build (v : Word) : (writeSrcBase v s).build = s.build := rfl
@[simp] theorem writeSrcBase_blk (v : Word) : (writeSrcBase v s).blk = { s.blk with srcBase := truncAddr s.build v } := rfl
@[simp] theorem writeSrcBase_mem (v : Word) : (writeSrcBase v s).mem = s.mem := rfl
@[simp] theorem writeSrcBase_outside (v : Word) : (writeSrcBase v s).outside = s.outside := rfl
@[simp] theorem writeSrcBase_dirty (v : Word) : (writeSrcBase v s).dirty = s.dirty := rfl
@[simp] theorem writeSrcBase_tick (v : Word) : (writeSrcBase v s).tick = s.tick := rfl

@[simp] theorem writeDstBase_build (v : Word) : (writeDstBase v s).build = s.build := rfl
@[simp] theorem writeDstBase_blk (v : Word) : (writeDstBase v s).blk = { s.blk with dstBase := truncAddr s.build v } := rfl
@[simp] theorem writeDstBase_mem (v : Word) : (writeDstBase v s).mem = s.mem := rfl
@[simp] theorem writeDstBase_outside (v : Word) : (writeDstBase v s).outside = s.outside := rfl
@[simp] theorem writeDstBase_dirty (v : Word) : (writeDstBase v s).dirty = s.dirty := rfl
@[simp] theorem writeDstBase_tick (v : Word) : (writeDstBase v s).tick = s.tick := rfl

@[simp] theorem writeCodecPix_build (v : Word) : (writeCodecPix v s).build = s.build := rfl
@[simp] theorem writeCodecPix_blk (v : Word) : (writeCodecPix v s).blk = { s.blk with codecPix := v.extractLsb' 0 8 } := rfl
@[simp] theorem writeCodecPix_mem (v : Word) : (writeCodecPix v s).mem = s.mem := rfl
@[simp] theorem writeCodecPix_outside (v : Word) : (writeCodecPix v s).outside = s.outside := rfl
@[simp] theorem writeCodecPix_dirty (v : Word) : (writeCodecPix v s).dirty = s.dirty := rfl
@[simp] theorem writeCodecPix_tick (v : Word) : (writeCodecPix v s).tick = s.tick := rfl

@[simp] theorem writeCodecCh_build (v : Word) : (writeCodecCh v s).build = s.build := rfl
@[simp] theorem writeCodecCh_blk (v : Word) :
    (writeCodecCh v s).blk =
      { s.blk with codecR := v.extractLsb' 0 8, codecG := v.extractLsb' 8 8, codecB := v.extractLsb' 16 8 } := rfl
@[simp] theorem writeCodecCh_mem (v : Word) : (writeCodecCh v s).mem = s.mem := rfl
@[simp] theorem writeCodecCh_outside (v : Word) : (writeCodecCh v s).outside = s.outside := rfl
@[simp] theorem writeCodecCh_dirty (v : Word) : (writeCodecCh v s).dirty = s.dirty := rfl
@[simp] theorem writeCodecCh_tick (v : Word) : (writeCodecCh v s).tick = s.tick := rfl

@[simp] theorem recordWord_build (w : Word) : (recordWord w s).build = s.build := rfl
@[simp] theorem recordWord_blk (w : Word) : (recordWord w s).blk = s.blk := rfl
@[simp] theorem recordWord_mem (w : Word) : (recordWord w s).mem = s.mem := rfl
@[simp] theorem recordWord_outside (w : Word) :
    (recordWord w s).outside =
      { s.outside with words := w :: s.outside.words } := rfl
@[simp] theorem recordWord_dirty (w : Word) : (recordWord w s).dirty = s.dirty := rfl
@[simp] theorem recordWord_tick (w : Word) : (recordWord w s).tick = s.tick := rfl

@[simp] theorem popOp_build : (popOp s).build = s.build := rfl
@[simp] theorem popOp_blk : (popOp s).blk = s.blk := rfl
@[simp] theorem popOp_mem : (popOp s).mem = s.mem := rfl
@[simp] theorem popOp_outside : (popOp s).outside = { s.outside with program := s.outside.program.tail } := rfl
@[simp] theorem popOp_dirty : (popOp s).dirty = s.dirty := rfl
@[simp] theorem popOp_tick : (popOp s).tick = s.tick := rfl

@[simp] theorem popTurn_build : (popTurn s).build = s.build := rfl
@[simp] theorem popTurn_blk : (popTurn s).blk = s.blk := rfl
@[simp] theorem popTurn_mem : (popTurn s).mem = s.mem := rfl
@[simp] theorem popTurn_outside : (popTurn s).outside = { s.outside with sched := s.outside.sched.tail } := rfl
@[simp] theorem popTurn_dirty : (popTurn s).dirty = s.dirty := rfl
@[simp] theorem popTurn_tick : (popTurn s).tick = s.tick := rfl

@[simp] theorem advance_build (i : Nat) : (advance i s).build = s.build := by unfold advance; split <;> rfl
@[simp] theorem advance_blk (i : Nat) : (advance i s).blk =
    if i = s.build.pixels then completedBlock i s.blk else { s.blk with prog := i } := by
  unfold advance completedBlock; split <;> rfl
@[simp] theorem advance_mem (i : Nat) : (advance i s).mem = s.mem := by unfold advance; split <;> rfl
@[simp] theorem advance_outside (i : Nat) : (advance i s).outside = s.outside := by unfold advance; split <;> rfl
@[simp] theorem advance_dirty (i : Nat) : (advance i s).dirty = s.dirty := by unfold advance; split <;> rfl
@[simp] theorem advance_tick (i : Nat) : (advance i s).tick = s.tick := by unfold advance; split <;> rfl

/-- With no turn listed there is none to take off. -/
theorem popTurn_of_empty (h : s.outside.sched = []) : popTurn s = s := by
  obtain ⟨b, k, m, ⟨p, sc, w, r, mb⟩, d, t⟩ := s
  simp only at h
  subst h
  rfl

/-- Pushing an operation and the host's turn, then taking both off, gives the state back. -/
@[simp] theorem popOp_popTurn_pushHostOp (op : HostOp) : popOp (popTurn (pushHostOp op s)) = s := rfl

@[simp] theorem pushHostOp_sched (op : HostOp) :
    (pushHostOp op s).outside.sched = .host :: s.outside.sched := rfl

@[simp] theorem pushHostOp_program (op : HostOp) :
    (pushHostOp op s).outside.program = op :: s.outside.program := rfl

end Sys2Proof.Machine
end

