-- ==== Sys2Proof/Laws/Engine.lean ====
section
/-! SUPPORT. The engine: when its step is enabled and what it does, that its addresses lie in its regions, and on what an
output pixel depends. -/

namespace Sys2Proof.Machine

section fields
variable (s : State) (op : Op)

@[simp] theorem writePixel_build : (writePixel s op).build = s.build := by simp [writePixel]
@[simp] theorem writePixel_outside : (writePixel s op).outside = s.outside := by simp [writePixel]
@[simp] theorem writePixel_dirty : (writePixel s op).dirty = s.dirty := by simp [writePixel]
@[simp] theorem writePixel_tick : (writePixel s op).tick = s.tick + 1 := by simp [writePixel]
@[simp] theorem writePixel_mem : (writePixel s op).mem = s.mem.write (nextAddr s) (outputByte s op) := by
  simp [writePixel]
@[simp] theorem writePixel_blk : (writePixel s op).blk =
    if s.blk.prog + 1 = s.build.pixels then completedBlock (s.blk.prog + 1) s.blk
    else { s.blk with prog := s.blk.prog + 1 } := by simp [writePixel]

end fields

/-- Everything an engine step can do (R58). -/
theorem engineStep_eq_some_iff {s t : State} :
    engineStep s = some t ↔
      s.blk.busy = true ∧ ∃ op, Op.ofCode s.blk.latOp = some op ∧ engineStalled s op = false ∧ t = writePixel s op := by
  unfold engineStep
  cases hb : s.blk.busy
  · simp
  · cases ho : Op.ofCode s.blk.latOp with
    | none => simp
    | some op =>
      cases hs : engineStalled s op
      · simp [hs, eq_comm (a := t)]
      · simp [hs]

theorem engineStep_idle {s : State} (h : s.blk.busy = false) : engineStep s = none := by simp [engineStep, h]

theorem engineStep_stalled {s : State} {op : Op} (ho : Op.ofCode s.blk.latOp = some op)
    (h : engineStalled s op = true) : engineStep s = none := by
  unfold engineStep; simp [ho, h]

theorem engineStep_enabled {s : State} {op : Op} (hb : s.blk.busy = true) (ho : Op.ofCode s.blk.latOp = some op)
    (h : engineStalled s op = false) : engineStep s = some (writePixel s op) :=
  engineStep_eq_some_iff.2 ⟨hb, op, ho, h, rfl⟩

/-- An access that must be made and gets no answer stalls the step (R36, R37, R58). -/
theorem stalled_of_unanswered {s : State} {op : Op} (h : Unanswered s op) : engineStalled s op = true := by
  simp only [engineStalled, Bool.or_eq_true, Bool.not_eq_true']
  left
  rcases h with h | ⟨q, hq, h⟩
  · exact .inl h
  · right
    rw [List.all_eq_false]
    exact ⟨q, hq, by rw [← Bool.not_eq_true] at h; exact h⟩

/-- An update that leaves alone what the engine looks at commutes with the engine's step. -/
theorem engineStep_congr {s : State} (f : State → State)
    (hb : (f s).build = s.build) (ht : (f s).tick = s.tick)
    (hk : (f s).blk.busy = s.blk.busy ∧ (f s).blk.latOp = s.blk.latOp ∧ (f s).blk.latThresh = s.blk.latThresh ∧
      (f s).blk.src = s.blk.src ∧ (f s).blk.dst = s.blk.dst ∧ (f s).blk.prog = s.blk.prog)
    (hw : ∀ op, writePixel (f s) op = f (writePixel s op)) : engineStep (f s) = (engineStep s).map f := by
  obtain ⟨h1, h2, h3, h4, h5, h6⟩ := hk
  have hst : ∀ op, engineStalled (f s) op = engineStalled s op := by
    intro op
    simp [engineStalled, nextAddr, nextX, nextY, sourceAddr, sourceAnswers, hb, ht, h4, h5, h6]
  unfold engineStep
  rw [h1, h2]
  cases s.blk.busy
  · simp
  · cases Op.ofCode s.blk.latOp with
    | none => simp
    | some op => cases hs : engineStalled s op <;> simp [hst, hs, hw]

/-- The engine's step does not look at the other agents, and leaves them alone. -/
theorem engineStep_withOutside (s : State) (o : Outside) :
    engineStep { s with outside := o } = (engineStep s).map fun u => { u with outside := o } := by
  refine engineStep_congr (fun u => { u with outside := o }) rfl rfl ⟨rfl, rfl, rfl, rfl, rfl, rfl⟩ ?_
  intro op
  unfold writePixel advance
  simp only
  split <;> rfl

theorem engineStep_popTurn (s : State) : engineStep (popTurn s) = (engineStep s).map popTurn := by
  rw [show popTurn s = { s with outside := (popTurn s).outside } from rfl, engineStep_withOutside]
  cases h : engineStep s with
  | none => rfl
  | some u =>
    obtain ⟨-, op, -, -, rfl⟩ := engineStep_eq_some_iff.1 h
    simp [popTurn]

/-- Row and column of the next output pixel lie in the image. -/
theorem next_inside {s : State} (hW : 1 ≤ s.build.width) (hp : s.blk.prog < s.build.pixels) :
    nextX s < s.build.width ∧ nextY s < s.build.height :=
  ⟨Nat.mod_lt _ hW, Nat.div_lt_of_lt_mul (by simpa [Build.pixels] using hp)⟩

/-- A pixel of the image lies in the region of the image (R32). -/
theorem pixaddr_inside {b : Build} {x y : Nat} (base : Nat) (hx : x < b.width) (hy : y < b.height) :
    base ≤ pixaddr b base x y ∧ pixaddr b base x y < base + b.pixels := by
  have h : y * b.width + x < b.height * b.width :=
    calc y * b.width + x < y * b.width + b.width := by omega
      _ = (y + 1) * b.width := by ring
      _ ≤ b.height * b.width := Nat.mul_le_mul_right _ hy
  unfold pixaddr Build.pixels
  rw [Nat.mul_comm b.width b.height]
  omega

/-- The row-major index of a byte of the region is its pixel's (R29, R32). -/
theorem pixaddr_divMod (b : Build) (base j : Nat) : pixaddr b base (j % b.width) (j / b.width) = base + j := by
  have := Nat.div_add_mod j b.width
  unfold pixaddr
  rw [Nat.mul_comm]
  omega

theorem clampCoord_lt {n : Nat} (hn : 1 ≤ n) (v : Int) : clampCoord n v < n := by
  unfold clampCoord
  omega

/-- A coordinate inside the image is not moved by the clamp (R76). -/
theorem clampCoord_inside {n k : Nat} (h : k < n) : clampCoord n (k : Int) = k := by
  unfold clampCoord
  omega

theorem clampedAt_inside {b : Build} (hW : 1 ≤ b.width) (hH : 1 ≤ b.height) (x y : Nat) (offs : List (Int × Int)) :
    ∀ q ∈ clampedAt b x y offs, q.1 < b.width ∧ q.2 < b.height := by
  intro q hq
  obtain ⟨d, -, rfl⟩ := List.mem_map.1 hq
  exact ⟨clampCoord_lt hW _, clampCoord_lt hH _⟩

/-- What an output pixel must read, it may depend on. -/
theorem mustRead_subset (b : Build) (op : Op) (x y : Nat) : ∀ q ∈ mustRead b op x y, q ∈ mayDependOn b op x y := by
  intro q hq
  cases op <;> first | exact hq | exact List.mem_cons_of_mem _ hq

/-- Every pixel an output pixel may depend on lies in the image. -/
theorem mayDependOn_inside {b : Build} (op : Op) {x y : Nat} (hx : x < b.width) (hy : y < b.height) :
    ∀ q ∈ mayDependOn b op x y, q.1 < b.width ∧ q.2 < b.height := by
  have hW : 1 ≤ b.width := by omega
  have hH : 1 ≤ b.height := by omega
  intro q hq
  cases op
  case blur => exact clampedAt_inside hW hH _ _ _ q hq
  case sharp => exact clampedAt_inside hW hH _ _ _ q hq
  case sobel => exact clampedAt_inside hW hH _ _ _ q hq
  case mirr =>
    obtain rfl : q = (b.width - 1 - x, y) := by simpa [mayDependOn, mustRead] using hq
    exact ⟨by simp only; omega, hy⟩
  all_goals
    obtain rfl : q = (x, y) := by simpa [mayDependOn, mustRead] using hq
    exact ⟨hx, hy⟩

theorem nextAddr_eq (s : State) : nextAddr s = pixaddr s.build s.blk.dst.toNat (nextX s) (nextY s) :=
  (pixaddr_divMod _ _ _).symm

/-- Where both regions answer, no step of the run is stuck (R62). -/
theorem not_stalled {s : State} (op : Op) (hW : 1 ≤ s.build.width) (hp : s.blk.prog < s.build.pixels)
    (h : RunAnswers s) : engineStalled s op = false := by
  obtain ⟨hx, hy⟩ := next_inside hW hp
  have h1 : answers s.build (nextAddr s) = true := h.dst _ hp
  have h2 : ∀ q ∈ mustRead s.build op (nextX s) (nextY s), answers s.build (sourceAddr s q) = true := by
    intro q hq
    obtain ⟨qx, qy⟩ := mayDependOn_inside op hx hy q (mustRead_subset _ _ _ _ q hq)
    obtain ⟨ha, hb⟩ := pixaddr_inside s.blk.src.toNat qx qy
    have := h.src (sourceAddr s q - s.blk.src.toNat) (by unfold sourceAddr; omega)
    rwa [show s.blk.src.toNat + (sourceAddr s q - s.blk.src.toNat) = sourceAddr s q by unfold sourceAddr; omega] at this
  have h3 : sourceAnswers s = true := by
    simp only [sourceAnswers, List.all_eq_true, List.mem_range]
    exact h.src
  simp only [engineStalled, h1, h3, Bool.not_true, Bool.false_and, Bool.or_false, Bool.false_or, Bool.not_eq_false',
    List.all_eq_true]
  exact h2

/-- No source byte was written by another agent: the output byte is the image function's (R46, R59). -/
theorem outputByte_clean {s : State} (op : Op) (h : s.dirty = []) :
    outputByte s op = pixel s.build op s.blk.latThresh (imageAt s.build s.mem s.blk.src.toNat) (nextX s) (nextY s) := by
  simp [outputByte, outputOpen, h]

theorem outputOpen_iff (s : State) (op : Op) :
    outputOpen s op = true ↔ ∃ q ∈ mayDependOn s.build op (nextX s) (nextY s), sourceAddr s q ∈ s.dirty := by
  simp [outputOpen]

/-- A window sample depends on the image only inside it. -/
theorem window_congr {b : Build} {I J : Image} (hW : 1 ≤ b.width) (hH : 1 ≤ b.height)
    (h : ∀ x < b.width, ∀ y < b.height, I x y = J x y) (c : Chan) (x y : Nat) : window b I c x y = window b J c x y := by
  funext i j
  simp only [window, replicated]
  rw [h _ (clampCoord_lt hW _) _ (clampCoord_lt hH _)]

/-- An output pixel inside the image depends on the source image only inside it (R59, R76). -/
theorem pixel_congr {b : Build} {I J : Image} (op : Op) (t : Byte) {x y : Nat} (hx : x < b.width) (hy : y < b.height)
    (h : ∀ x < b.width, ∀ y < b.height, I x y = J x y) : pixel b op t I x y = pixel b op t J x y := by
  have hW : 1 ≤ b.width := by omega
  have hH : 1 ≤ b.height := by omega
  have hw := window_congr hW hH h
  cases op
  case mirr => exact h _ (by omega) _ hy
  case blur => simp only [pixel, pixelBlur, blurChan, hw]
  case sharp => simp only [pixel, pixelSharp, sharpChan, hw]
  case sobel => simp only [pixel, pixelSobel, sobelChan, hw]
  all_goals simp only [pixel, pixelInvb, pixelInvc, pixelBw, pixelGray, h x hx y hy]

/-- A point filter's output pixel depends on the source pixel of the same position alone. -/
theorem pixel_point_congr {b : Build} {I J : Image} {op : Op} (hop : op.isPoint = true) (t : Byte) {x y : Nat}
    (h : I x y = J x y) : pixel b op t I x y = pixel b op t J x y := by
  cases op
  case mirr => cases hop
  case blur => cases hop
  case sharp => cases hop
  case sobel => cases hop
  all_goals simp only [pixel, pixelInvb, pixelInvc, pixelBw, pixelGray, h]

/-- Two engine runs in a row are one. -/
theorem engineRun_add (j k : Nat) (s : State) : engineRun (j + k) s = (engineRun j s).bind (engineRun k) := by
  induction j generalizing s with
  | zero => simp [engineRun]
  | succ j ih =>
    rw [Nat.succ_add, engineRun, engineRun]
    cases engineStep s with
    | none => rfl
    | some u => exact ih u

end Sys2Proof.Machine
end

