-- ==== Sys2Proof/Laws/Issue.lean ====
section
/-! SUPPORT. The `CMD` write: every command's meaning is `issue` with its own mnemonic, and `issue` by cases. -/

namespace Sys2Proof.Machine

/-- R56 test 5 on two regions. -/
theorem regionsOverlap_iff (sb db n : Nat) : regionsOverlap sb db n = true ↔ sb < db + n ∧ db < sb + n := by
  simp [regionsOverlap]

/-- A region meets `[base, base + n)` where it contains one of its addresses. -/
theorem regionMeets_iff (r : Region) (base n : Nat) :
    regionMeets r base n = true ↔ ∃ k < n, regionContains r (base + k) = true := by
  simp only [regionMeets, regionContains, Bool.and_eq_true, decide_eq_true_eq]
  constructor
  · rintro ⟨⟨⟨h1, h2⟩, h3⟩, h4⟩
    exact ⟨max base r.base - base, by omega, by omega, by omega⟩
  · rintro ⟨k, hk, h1, h2⟩
    omega

/-- A region covers side-effect memory where it is not plain (R101). -/
theorem coversDevice_eq_false_iff (b : Build) (base : Nat) :
    coversDevice b base b.pixels = false ↔ PlainRegion b base := by
  simp only [coversDevice, List.any_eq_false, PlainRegion, isDevice]
  constructor
  · intro h k hk r hr hc
    exact h r hr ((regionMeets_iff r base b.pixels).2 ⟨k, hk, hc⟩)
  · intro h r hr hc
    obtain ⟨k, hk, hc⟩ := (regionMeets_iff r base b.pixels).1 hc
    exact h k hk r hr hc

theorem regionsCoverDevice_eq_false_iff (s : State) :
    regionsCoverDevice s = false ↔
      PlainRegion s.build s.blk.srcBase.toNat ∧ PlainRegion s.build s.blk.dstBase.toNat := by
  simp [regionsCoverDevice, coversDevice_eq_false_iff]

/-- The checks pass exactly where the regions are in order (R56), for an image of at least one pixel. -/
theorem checkRegions_eq_none_iff {op : Op} {b : Build} {sb db : Nat} :
    checkRegions op b sb db = none ↔ RegionsOk b op sb db := by
  unfold checkRegions
  constructor
  · intro h
    split_ifs at h with h1 h2
    rw [not_or, not_lt, not_lt] at h1
    rw [Bool.and_eq_true, regionsOverlap_iff] at h2
    refine ⟨h1.1, h1.2, ?_⟩
    by_cases ho : sb < db + b.pixels ∧ db < sb + b.pixels
    · right; right
      simpa [ho] using h2
    · omega
  · rintro ⟨h1, h2, h3⟩
    rw [if_neg (by omega), if_neg]
    rw [Bool.and_eq_true, regionsOverlap_iff]
    rintro ⟨ho, hp⟩
    simp only [Bool.not_eq_true', Bool.and_eq_false_iff, decide_eq_false_iff_not] at hp
    rcases h3 with h3 | h3 | ⟨h3, h4⟩
    · omega
    · omega
    · simp [h3, h4] at hp

/-- The refusal of a range (R56 test 4). -/
theorem checkRegions_range {op : Op} {b : Build} {sb db : Nat} (h : b.space < sb + b.pixels ∨ b.space < db + b.pixels) :
    checkRegions op b sb db = some .range := if_pos h

/-- The refusal of an overlap (R56 test 5). -/
theorem checkRegions_overlap {op : Op} {b : Build} {sb db : Nat} (h1 : sb + b.pixels ≤ b.space)
    (h2 : db + b.pixels ≤ b.space) (h3 : sb < db + b.pixels) (h4 : db < sb + b.pixels)
    (h5 : ¬(op.isPoint = true ∧ sb = db)) : checkRegions op b sb db = some .overlap := by
  unfold checkRegions
  rw [if_neg (by omega), if_pos]
  rw [Bool.and_eq_true, regionsOverlap_iff]
  refine ⟨⟨h3, h4⟩, ?_⟩
  by_contra hc
  simp only [Bool.not_eq_true, Bool.not_eq_false', Bool.and_eq_true, decide_eq_true_eq] at hc
  exact h5 hc

/-- Every command's meaning is the shared handling with its mnemonic and operands. -/
theorem exec_eq_issue (i : Instr) (s : State) : exec i s = issue i.op i.nulldst i.thresh s := by cases i <;> rfl

/-- The refusals and acceptances, in the terms claims use. -/
theorem raiseError_busy (s : State) : raiseError .busy s = afterBusyRefusal s := rfl

theorem raiseError_clearStatus (e : ErrCode) (s : State) :
    raiseError e (clearStatus s) = afterIdleRefusal (errorCode e) s := rfl

theorem completeNull_latch {i : Instr} (h : i.nulldst = true) (s : State) :
    completeNull (latch i.op true i.thresh (clearStatus s)) = afterNull i s := by
  rw [afterNull, encode, h]; rfl

theorem startEngine_latch {i : Instr} (h : i.nulldst = false) (s : State) :
    startEngine (latch i.op false i.thresh (clearStatus s)) = afterAccept i s := by
  rw [afterAccept, encode, h]; rfl

theorem issue_busy {op : Op} {n : Bool} {t : Byte} {s : State} (h : s.blk.busy = true) :
    issue op n t s = .next (raiseError .busy s) := if_pos h

theorem issue_null {op : Op} {t : Byte} {s : State} (h : s.blk.busy = false) :
    issue op true t s = .next (completeNull (latch op true t (clearStatus s))) := by simp [issue, h]

theorem issue_refused {op : Op} {t : Byte} {s : State} {e : ErrCode} (h : s.blk.busy = false)
    (hc : checkRegions op s.build s.blk.srcBase.toNat s.blk.dstBase.toNat = some e) :
    issue op false t s = .next (raiseError e (clearStatus s)) := by simp [issue, h, hc]

theorem issue_device {op : Op} {t : Byte} {s : State} (h : s.blk.busy = false)
    (hc : checkRegions op s.build s.blk.srcBase.toNat s.blk.dstBase.toNat = none) (hd : regionsCoverDevice s = true) :
    issue op false t s = .refused .deviceRegion := by simp [issue, h, hc, hd]

theorem issue_accepted {op : Op} {t : Byte} {s : State} (h : s.blk.busy = false)
    (hc : checkRegions op s.build s.blk.srcBase.toNat s.blk.dstBase.toNat = none) (hd : regionsCoverDevice s = false) :
    issue op false t s = .next (startEngine (latch op false t (clearStatus s))) := by simp [issue, h, hc, hd]

/-- Everything a `CMD` write of a command can do (R55 to R57, R83, R101). -/
theorem issue_cases (op : Op) (n : Bool) (t : Byte) (s : State) :
    (s.blk.busy = true ∧ issue op n t s = .next (raiseError .busy s)) ∨
    (s.blk.busy = false ∧ n = true ∧ issue op n t s = .next (completeNull (latch op true t (clearStatus s)))) ∨
    (s.blk.busy = false ∧ n = false ∧ ∃ e, issue op n t s = .next (raiseError e (clearStatus s))) ∨
    (s.blk.busy = false ∧ n = false ∧ RegionsOk s.build op s.blk.srcBase.toNat s.blk.dstBase.toNat ∧
      regionsCoverDevice s = true ∧ issue op n t s = .refused .deviceRegion) ∨
    (s.blk.busy = false ∧ n = false ∧ Acceptable op s ∧
      issue op n t s = .next (startEngine (latch op false t (clearStatus s)))) := by
  cases hb : s.blk.busy
  · cases n
    · cases hc : checkRegions op s.build s.blk.srcBase.toNat s.blk.dstBase.toNat with
      | some e => exact .inr (.inr (.inl ⟨rfl, rfl, e, issue_refused hb hc⟩))
      | none =>
        have hr := checkRegions_eq_none_iff.1 hc
        cases hd : regionsCoverDevice s
        · have hp := (regionsCoverDevice_eq_false_iff s).1 hd
          exact .inr (.inr (.inr (.inr ⟨rfl, rfl, ⟨hb, hr, hp.1, hp.2⟩, issue_accepted hb hc hd⟩)))
        · exact .inr (.inr (.inr (.inl ⟨rfl, rfl, hr, rfl, issue_device hb hc hd⟩)))
    · exact .inr (.inl ⟨rfl, rfl, issue_null hb⟩)
  · exact .inl ⟨rfl, issue_busy hb⟩

end Sys2Proof.Machine
end

