-- ==== Sys2Proof/Laws/PerInstr.lean ====
section
/-! SUPPORT. Statements made for each command on its own: the fields of its word (R48, R49, R52). -/

namespace Sys2Proof.Laws.Fields

/-- The word of a command holds its code, its `NULLDST` and its `THRESH`, and no reserved bit. -/
def Statement (i : Instr) : Prop :=
  opField (encode i) = i.op.code ∧ nulldstField (encode i) = i.nulldst ∧ threshField (encode i) = i.thresh ∧
    encode i &&& reservedMask = 0#32

theorem of_cmdWord (i : Instr) : Statement i :=
  ⟨opField_cmdWord _ _ _, nulldstField_cmdWord _ _ _, threshField_cmdWord _ _ _, reserved_cmdWord _ _ _⟩

theorem invb (nulldst : Bool) (thresh : Byte) : Statement (.invb nulldst thresh) := of_cmdWord _
theorem invc (nulldst : Bool) (thresh : Byte) : Statement (.invc nulldst thresh) := of_cmdWord _
theorem bw (nulldst : Bool) (thresh : Byte) : Statement (.bw nulldst thresh) := of_cmdWord _
theorem mirr (nulldst : Bool) (thresh : Byte) : Statement (.mirr nulldst thresh) := of_cmdWord _
theorem blur (nulldst : Bool) (thresh : Byte) : Statement (.blur nulldst thresh) := of_cmdWord _
theorem sharp (nulldst : Bool) (thresh : Byte) : Statement (.sharp nulldst thresh) := of_cmdWord _
theorem sobel (nulldst : Bool) (thresh : Byte) : Statement (.sobel nulldst thresh) := of_cmdWord _
theorem gray (nulldst : Bool) (thresh : Byte) : Statement (.gray nulldst thresh) := of_cmdWord _

end Sys2Proof.Laws.Fields
end

