-- ==== Sys2Proof/Laws/Step.lean ====
section
/-! SUPPORT. What a step can do, said once: the access of another agent to memory, the `CMD` write, a register write, and the
step itself, each by cases. -/

namespace Sys2Proof.Machine

/-- An access of another agent goes through at an address that answers and is plain memory (log 9, log 10). -/
theorem guardAccess_eq_next_iff {a : Nat} {s t u : State} :
    guardAccess a s t = .next u ↔ answers s.build a = true ∧ isDevice s.build a = false ∧ u = t := by
  unfold guardAccess
  have hin : answers s.build a = true → inSpace s.build a = true := by
    simp only [answers, Bool.and_eq_true]; exact fun h => h.1
  cases h1 : inSpace s.build a
  · have : answers s.build a = false := by
      cases h : answers s.build a with
      | false => rfl
      | true => exact absurd (hin h) (by simp [h1])
    simp [this]
  · cases h2 : answers s.build a
    · simp
    · cases h3 : isDevice s.build a <;> simp [eq_comm]

theorem windowOffset_eq_some {b : Build} {addr off : Nat} (h : windowOffset b addr = some off) :
    b.engineBase + off = addr := by
  unfold windowOffset at h
  split_ifs at h with h1
  cases h
  omega

theorem windowOffset_add (b : Build) (off : Nat) : windowOffset b (b.engineBase + off) = some off := by
  simp [windowOffset]

theorem guardRegister_eq_next {off size : Nat} {r : Host.Outcome State Fault Refusal} {t : State}
    (h : guardRegister off size r = .next t) : RegAccess.wf ⟨off, size⟩ ∧ r = .next t := by
  unfold guardRegister at h
  split_ifs at h with hw
  exact ⟨hw, h⟩

/-- Everything a `CMD` write can do when it answers a next state (R55). -/
theorem cmdWrite_cases {v : Word} {s t : State} (h : cmdWrite v s = .next t) :
    (s.blk.busy = true ∧ t = raiseError .busy s) ∨
    (s.blk.busy = false ∧ ∃ e, t = raiseError e (clearStatus s)) ∨
    (s.blk.busy = false ∧ ∃ i, decode v = .command i ∧ i.nulldst = true ∧
      t = completeNull (latch i.op true i.thresh (clearStatus s))) ∨
    (s.blk.busy = false ∧ ∃ i, decode v = .command i ∧ i.nulldst = false ∧ Acceptable i.op s ∧
      t = startEngine (latch i.op false i.thresh (clearStatus s))) := by
  unfold cmdWrite at h
  cases hd : decode v with
  | refused e =>
    simp only [hd, refuseWord, Host.Outcome.next.injEq] at h
    cases hb : s.blk.busy
    · exact .inr (.inl ⟨rfl, e, by simpa [hb] using h.symm⟩)
    · exact .inl ⟨rfl, by simpa [hb] using h.symm⟩
  | command i =>
    simp only [hd, exec_eq_issue] at h
    rcases issue_cases i.op i.nulldst i.thresh s with
      ⟨hb, hi⟩ | ⟨hb, hn, hi⟩ | ⟨hb, -, e, hi⟩ | ⟨-, -, -, -, hi⟩ | ⟨hb, hn, ha, hi⟩ <;>
      rw [hi] at h <;> cases h
    · exact .inl ⟨hb, rfl⟩
    · exact .inr (.inr (.inl ⟨hb, i, rfl, hn, rfl⟩))
    · exact .inr (.inl ⟨hb, e, rfl⟩)
    · exact .inr (.inr (.inr ⟨hb, i, rfl, hn, ha, rfl⟩))

/-- Everything a register write can do when it answers a next state (R16). -/
theorem regWrite_cases {off : Nat} {v : Word} {s t : State} (h : regWrite off v s = .next t) :
    (off = 0x00 ∧ cmdWrite v s = .next t) ∨ t = writeSrcBase v s ∨ t = writeDstBase v s ∨
      (off = 0x0C ∧ t = statusWrite v s) ∨ t = writeCodecPix v s ∨ t = writeCodecCh v s ∨ t = s := by
  unfold regWrite at h
  split at h
  · exact .inl ⟨rfl, h⟩
  all_goals
    simp only [Host.Outcome.next.injEq] at h
    simp [← h]

/-- States with one block and one build run the same command. -/
theorem SameRun.of_blk {s t : State} (hb : t.build = s.build) (hk : t.blk = s.blk) : SameRun s t := by
  constructor <;> simp [hb, hk]

theorem SameRun.trans {s t u : State} (h : SameRun s t) (h' : SameRun t u) : SameRun s u :=
  ⟨h'.build.trans h.build, h'.busy.trans h.busy, h'.cmd.trans h.cmd, h'.latOp.trans h.latOp,
    h'.latThresh.trans h.latThresh, h'.src.trans h.src, h'.dst.trans h.dst, h'.prog.trans h.prog⟩

/-- What cannot be answered depends on the run alone. -/
theorem Unanswered.of_sameRun {s t : State} {op : Op} (h : Unanswered s op) (e : SameRun s t) : Unanswered t op := by
  unfold Unanswered at *
  rw [e.build, e.dst, e.prog, e.src]
  exact h

/-- A register write leaves the other agents alone. -/
theorem regWrite_outside {off : Nat} {v : Word} {s t : State} (h : regWrite off v s = .next t) : t.outside = s.outside := by
  rcases regWrite_cases h with ⟨-, h⟩ | rfl | rfl | ⟨-, rfl⟩ | rfl | rfl | rfl
  · rcases cmdWrite_cases h with ⟨-, rfl⟩ | ⟨-, e, rfl⟩ | ⟨-, i, -, -, rfl⟩ | ⟨-, i, -, -, -, rfl⟩ <;> simp
  all_goals rfl

/-- A register write while a command runs leaves the command and its progress alone (R55, R103). -/
theorem regWrite_sameRun {off : Nat} {v : Word} {s t : State} (hb : s.blk.busy = true) (h : regWrite off v s = .next t) :
    SameRun s t := by
  rcases regWrite_cases h with ⟨-, h⟩ | rfl | rfl | ⟨-, rfl⟩ | rfl | rfl | rfl
  · rcases cmdWrite_cases h with ⟨-, rfl⟩ | ⟨hf, -⟩ | ⟨hf, -⟩ | ⟨hf, -⟩
    · exact ⟨rfl, rfl, rfl, rfl, rfl, rfl, rfl, rfl⟩
    all_goals exact absurd (hb.symm.trans hf) (by decide)
  all_goals exact ⟨rfl, rfl, rfl, rfl, rfl, rfl, rfl, rfl⟩

/-- Everything a step can do when it answers a next state (R7, R85). -/
theorem step_cases {s t : State} (h : step s = .next t) :
    (nextTurn s = .host ∧ (t = popTurn s ∨ t = popOp (popTurn s))) ∨
    (nextTurn s = .host ∧ ∃ off v, HostWrites s off v ∧ regWrite off v (popOp (popTurn s)) = .next t) ∨
    (nextTurn s = .host ∧ ∃ w, t = recordWord w (popOp (popTurn s))) ∨
    (nextTurn s = .host ∧ ∃ a v rest, s.outside.program = .memWr a v :: rest ∧ answers s.build a = true ∧
      isDevice s.build a = false ∧ t = storeFromOutside a v (popOp (popTurn s))) ∨
    (nextTurn s = .engine ∧ t = engineTurn (popTurn s)) ∨
    (nextTurn s = .reset ∧ t = resetBlock (popTurn s)) ∨
    (∃ a v, nextTurn s = .masterWrite a v ∧ answers s.build a = true ∧ isDevice s.build a = false ∧
      t = storeFromOutside a v (popTurn s)) ∨
    (∃ o : Outside, o.sched = s.outside.sched.tail ∧ t = { s with outside := o }) := by
  unfold step at h
  cases hn : nextTurn s with
  | engine =>
    simp only [hn, takeTurn, Host.Outcome.next.injEq] at h
    exact .inr (.inr (.inr (.inr (.inl ⟨rfl, h.symm⟩))))
  | reset =>
    simp only [hn, takeTurn, Host.Outcome.next.injEq] at h
    exact .inr (.inr (.inr (.inr (.inr (.inl ⟨rfl, h.symm⟩)))))
  | masterWrite a v =>
    simp only [hn, takeTurn, outsideWrite] at h
    obtain ⟨h1, h2, rfl⟩ := guardAccess_eq_next_iff.1 h
    exact .inr (.inr (.inr (.inr (.inr (.inr (.inl ⟨a, v, rfl, h1, h2, rfl⟩))))))
  | masterRead a =>
    simp only [hn, takeTurn, masterMemRead] at h
    obtain ⟨-, -, rfl⟩ := guardAccess_eq_next_iff.1 h
    exact .inr (.inr (.inr (.inr (.inr (.inr (.inr ⟨_, rfl, rfl⟩))))))
  | host =>
    simp only [hn, takeTurn, hostTurn] at h
    cases hp : (popTurn s).outside.program with
    | nil =>
      simp only [hp, Host.Outcome.next.injEq] at h
      exact .inl ⟨rfl, .inl h.symm⟩
    | cons op rest =>
      rw [hp] at h
      have hp' : s.outside.program = op :: rest := hp
      cases op with
      | wr off v =>
        obtain ⟨-, h⟩ := guardRegister_eq_next h
        exact .inr (.inl ⟨rfl, off, v, ⟨hn, rest, .inl hp'⟩, h⟩)
      | rd off =>
        obtain ⟨-, h⟩ := guardRegister_eq_next h
        cases h
        exact .inr (.inr (.inl ⟨rfl, _, rfl⟩))
      | poll off lo width v =>
        obtain ⟨-, h⟩ := guardRegister_eq_next h
        cases h
        refine .inl ⟨rfl, ?_⟩
        split
        · exact .inr rfl
        · exact .inl rfl
      | busWr addr bytes =>
        simp only [hostOp, busWrite] at h
        split_ifs at h with h1
        · cases ho : windowOffset (popOp (popTurn s)).build addr with
          | none => rw [ho] at h; cases h
          | some off =>
            rw [ho] at h
            obtain ⟨hw, h⟩ := guardRegister_eq_next h
            refine .inr (.inl ⟨rfl, off, _, ⟨hn, rest, .inr ⟨bytes, ?_, hw.2.2, rfl⟩⟩, h⟩)
            rw [hp', (windowOffset_eq_some ho).symm]
            rfl
        · cases h
          exact .inl ⟨rfl, .inr rfl⟩
      | busRd addr size =>
        simp only [hostOp, busRead] at h
        split_ifs at h with h1
        · cases ho : windowOffset (popOp (popTurn s)).build addr with
          | none => rw [ho] at h; cases h
          | some off =>
            rw [ho] at h
            obtain ⟨-, h⟩ := guardRegister_eq_next h
            cases h
            exact .inr (.inr (.inl ⟨rfl, _, rfl⟩))
        · cases h
          exact .inl ⟨rfl, .inr rfl⟩
      | memWr a v =>
        simp only [hostOp, outsideWrite] at h
        obtain ⟨h1, h2, rfl⟩ := guardAccess_eq_next_iff.1 h
        exact .inr (.inr (.inr (.inl ⟨rfl, a, v, rest, hp', h1, h2, rfl⟩)))
      | memRd a =>
        simp only [hostOp, hostMemRead] at h
        obtain ⟨-, -, rfl⟩ := guardAccess_eq_next_iff.1 h
        exact .inr (.inr (.inr (.inr (.inr (.inr (.inr ⟨_, rfl, rfl⟩))))))

/-- A step uses up the listed turn, and lists no other. -/
theorem step_sched {s t : State} (h : step s = .next t) : t.outside.sched = s.outside.sched.tail := by
  rcases step_cases h with ⟨-, rfl | rfl⟩ | ⟨-, off, v, -, h⟩ | ⟨-, w, rfl⟩ | ⟨-, a, v, rest, -, -, -, rfl⟩ | ⟨-, rfl⟩ |
    ⟨-, rfl⟩ | ⟨a, v, -, -, -, rfl⟩ | ⟨o, ho, rfl⟩
  case inr.inl => rw [regWrite_outside h]; rfl
  case inr.inr.inr.inr.inl =>
    rw [engineTurn, engineStep_popTurn]
    cases he : engineStep s with
    | none => rfl
    | some u =>
      obtain ⟨-, op, -, -, rfl⟩ := engineStep_eq_some_iff.1 he
      simp [popTurn]
  all_goals first | rfl | exact ho

/-- A run is a run of the host's interface. -/
theorem run_eq_coreRun (k : Nat) (s : State) : run k s = Host.Core.run Sys2Proof.core k s := by
  induction k generalizing s with
  | zero => rfl
  | succ k ih =>
    have hc := Host.Core.run.eq_2 Sys2Proof.core s k
    rw [hc, run]
    cases hs : step s with
    | next t => rw [show Sys2Proof.core.step s = .next t from hs]; exact ih t
    | fault r => rw [show Sys2Proof.core.step s = .fault r from hs]; rfl
    | refused r => rw [show Sys2Proof.core.step s = .refused r from hs]; rfl

@[simp] theorem run_zero (s : State) : run 0 s = .next s := rfl

/-- The first step of a run. -/
theorem run_succ_of_next {s t : State} (h : step s = .next t) (k : Nat) : run (k + 1) s = run k t := by
  simp [run, h]

/-- A run cut after `j` steps. -/
theorem run_add_of_next {j k : Nat} {s t : State} (h : run j s = .next t) : run (j + k) s = run k t := by
  induction j generalizing s with
  | zero => cases h; simp
  | succ j ih =>
    rw [Nat.succ_add]
    cases hs : step s with
    | next u =>
      rw [run_succ_of_next hs] at h ⊢
      exact ih h
    | fault r => simp [run, hs] at h
    | refused r => simp [run, hs] at h

/-- A state whose step leads back to it is never left. -/
theorem run_of_fixed {s : State} (h : step s = .next s) (k : Nat) : run k s = .next s := by
  induction k with
  | zero => rfl
  | succ k ih => rw [run_succ_of_next h, ih]

end Sys2Proof.Machine
end

