-- ==== Sys2Proof/Tests/Slice0.lean ====
section
/-! SUPPORT. Small tests with the spec's own words and vectors (30_encoding.md, 95_test_vectors.md), and for every statement
with hypotheses a concrete state and operands that meet them. -/

namespace Sys2Proof.Tests
open Sys2Proof.Machine

/-! ### Helpers -/

/-- The next state, if there is one. -/
def next? : Host.Outcome State Fault Refusal → Option State
  | .next s => some s
  | _ => none

/-- The refusal, if there is one. -/
def refusal? : Host.Outcome State Fault Refusal → Option Refusal
  | .refused r => some r
  | _ => none

/-- The fault, if there is one. -/
def fault? : Host.Outcome State Fault Refusal → Option Fault
  | .fault f => some f
  | _ => none

/-- The example build with another image size. -/
def sized (w h : Nat) : Build := { Config.exampleBuild with width := w, height := h }

/-- An image from its rows, as 95_test_vectors.md writes them. -/
def img (rows : List (List Byte)) : Image := fun x y => (rows.getD y []).getD x 0#8

/-- The rows of an image of a build's size. -/
def rowsOf (b : Build) (F : Nat → Nat → Byte) : List (List Byte) :=
  (List.range b.height).map fun y => (List.range b.width).map fun x => F x y

/-- Memory holding bytes from an address up. -/
def memOf : Nat → List Byte → Memory
  | _, [] => []
  | a, v :: vs => (memOf (a + 1) vs).write a v

/-- Image `C` of 95_test_vectors.md. -/
def imageC : List Byte := [0xE0#8, 0x1C#8, 0x03#8, 0x00#8]

/-- Idle, `SRC_BASE = sb`, `DST_BASE = db`, with bytes at 0x100. -/
def idleAt (sb db : Word) (bytes : List Byte) : State :=
  { State.reset with mem := memOf 0x100 bytes, blk := { Block.reset with srcBase := sb, dstBase := db } }

/-- Idle, source at 0x100, destination at 0x200, image `C` at the source. -/
def ready : State := idleAt 0x100#32 0x200#32 imageC

/-- As `ready`, in place. -/
def inPlace : State := idleAt 0x100#32 0x100#32 imageC

/-- `ready` with the command accepted. -/
def running (i : Instr) : State := afterAccept i ready

/-- The state with these operations left to the host. -/
def withHost (ops : List HostOp) (s : State) : State := { s with outside := { s.outside with program := ops } }

/-- The state with these turns to come. -/
def withSched (l : List Turn) (s : State) : State := { s with outside := { s.outside with sched := l } }

/-- What `STATUS` reads after the host writes a word to `CMD`. -/
def statusAfter (v : Word) (s : State) : Option Word := (next? (regWrite 0x00 v s)).map (regValue · 0x0C)

/-- What a register reads after a register write. -/
def readAfter (off : Nat) (v : Word) (r : Nat) (s : State) : Option Word := (next? (regWrite off v s)).map (regValue · r)

/-- The byte the running engine writes next, at the address given. -/
def written (a : Nat) (s : State) : Option Byte := (next? (step s)).map (·.mem.read a)

/-! ### WellFormed: a term that each check refuses, and one that passes (R8, R15) -/

theorem test_build_ok : Build.wf Config.exampleBuild := by decide
theorem test_build_width_0 : ¬Build.wf (sized 0 2) := by decide
theorem test_build_width_65536 : ¬Build.wf { sized 65536 1 with addrBits := 32 } := by decide
theorem test_build_height_0 : ¬Build.wf (sized 2 0) := by decide
theorem test_build_height_65536 : ¬Build.wf { sized 1 65536 with addrBits := 32 } := by decide
theorem test_build_addrBits_0 : ¬Build.wf { sized 1 1 with addrBits := 0 } := by decide
theorem test_build_addrBits_33 : ¬Build.wf { sized 1 1 with addrBits := 33 } := by decide
theorem test_build_too_many_pixels : ¬Build.wf { sized 3 3 with addrBits := 3 } := by decide
theorem test_access_ok : RegAccess.wf ⟨0x3C, 4⟩ := by decide
theorem test_access_outside : ¬RegAccess.wf ⟨0x40, 4⟩ := by decide
theorem test_access_misaligned : ¬RegAccess.wf ⟨0x0E, 4⟩ := by decide
theorem test_access_subword : ¬RegAccess.wf ⟨0x0C, 2⟩ := by decide

/-! ### Decoding: words written out bit by bit from the format of R48, grouped by its fields -/

theorem test_decode_invb : decode 0b00000000_00000000_0000000_0_0000_0000#32 = .command (.invb false 0#8) := by decide
theorem test_decode_invc : decode 0b00000000_00000000_0000000_1_0000_0001#32 = .command (.invc true 0#8) := by decide
theorem test_decode_bw : decode 0b00000000_10000000_0000000_0_0000_0010#32 = .command (.bw false 0x80#8) := by decide
theorem test_decode_mirr : decode 0b00000000_00000000_0000000_0_0000_0011#32 = .command (.mirr false 0#8) := by decide
theorem test_decode_blur : decode 0b00000000_11111111_0000000_0_0000_0100#32 = .command (.blur false 0xFF#8) := by decide
theorem test_decode_sharp : decode 0b00000000_00000000_0000000_1_0000_0101#32 = .command (.sharp true 0#8) := by decide
theorem test_decode_sobel : decode 0b00000000_00000000_0000000_0_0000_0110#32 = .command (.sobel false 0#8) := by decide
theorem test_decode_gray : decode 0b00000000_00000001_0000000_1_0000_0111#32 = .command (.gray true 1#8) := by decide
theorem test_decode_illegal : decode 0b00000000_00000000_0000000_0_0000_1000#32 = .refused .illegalOp := by decide
theorem test_decode_reserved_wins : decode 0b00000000_00000000_0000000_0_0001_1111#32 = .refused .reserved := by decide
theorem test_decode_bit_9 : decode 0b00000000_00000000_0000001_0_0000_0000#32 = .refused .reserved := by decide
theorem test_decode_bit_24 : decode 0b00000001_00000000_0000000_0_0000_0000#32 = .refused .reserved := by decide
theorem test_encode_bw_n : encode (.bw true 0x7F#8) = 0b00000000_01111111_0000000_1_0000_0010#32 := by decide
theorem test_table_word : decodeTableWord 32 0x00800002 = some (.bw false 0x80#8) ∧ decodeTableWord 32 8 = none := by decide

/-! ### The byte functions (V1, V2, V4, V5 and E1 of 95_test_vectors.md) -/

theorem test_dec : [0xB6#8, 0xFF#8, 0x5A#8, 0x80#8].map dec = [(5, 5, 2), (7, 7, 3), (2, 6, 2), (4, 0, 0)] := by decide
theorem test_enc : [enc 5 5 2, enc 9 0 0, enc 0 8 0, enc 0 0 4, enc 0 0 7, enc 255 255 255] =
    [0xB6#8, 0x20#8, 0x00#8, 0x00#8, 0x03#8, 0xFF#8] := by decide
theorem test_invb : [0x00#8, 0xFF#8, 0xB6#8, 0x6D#8, 0x24#8, 0xE0#8, 0x5A#8].map invb =
    [0xFF#8, 0x00#8, 0x49#8, 0x92#8, 0xDB#8, 0x1F#8, 0xA5#8] := by decide
theorem test_invc : [0xB6#8, 0x6D#8, 0x24#8, 0xE0#8, 0x1C#8, 0x03#8, 0x01#8].map invc =
    [0x49#8, 0x92#8, 0xDB#8, 0x1F#8, 0xE3#8, 0xFC#8, 0xFE#8] := by decide
theorem test_bw : [0x00#8, 0x7F#8, 0x80#8, 0x81#8, 0xFF#8].map (bw .gt 0x80#8) =
    [0x00#8, 0x00#8, 0x00#8, 0xFF#8, 0xFF#8] := by decide
theorem test_bw_ge : [0x00#8, 0x7F#8, 0x80#8, 0x81#8, 0xFF#8].map (bw .ge 0x80#8) =
    [0x00#8, 0x00#8, 0xFF#8, 0xFF#8, 0xFF#8] := by decide
theorem test_gray : [0x00#8, 0xFF#8, 0xB6#8, 0x6D#8, 0xE0#8, 0x03#8, 0x80#8, 0x5A#8, 0x24#8].map gray =
    [0x00#8, 0xDB#8, 0x92#8, 0x49#8, 0x49#8, 0x49#8, 0x24#8, 0x92#8, 0x00#8] := by decide

/-! ### The image functions (V3, V6) -/

theorem test_mirr : rowsOf (sized 3 3) (pixelMirr (sized 3 3)
      (img [[0x00#8, 0x24#8, 0x49#8], [0x6D#8, 0x92#8, 0xB6#8], [0xDB#8, 0xFF#8, 0xE0#8]])) =
    [[0x49#8, 0x24#8, 0x00#8], [0xB6#8, 0x92#8, 0x6D#8], [0xE0#8, 0xFF#8, 0xDB#8]] := by decide
theorem test_blur : rowsOf (sized 3 3) (pixelBlur (sized 3 3)
      (img [[0x00#8, 0x24#8, 0x49#8], [0x6D#8, 0x92#8, 0xB6#8], [0xDB#8, 0xFF#8, 0xE0#8]])) =
    [[0x24#8, 0x48#8, 0x49#8], [0x6D#8, 0x6D#8, 0x89#8], [0xB6#8, 0xB1#8, 0xCD#8]] := by decide
theorem test_sharp : rowsOf (sized 3 3) (pixelSharp (sized 3 3)
      (img [[0x00#8, 0x24#8, 0x49#8], [0x6D#8, 0x92#8, 0xB6#8], [0xDB#8, 0xFF#8, 0xE0#8]])) =
    [[0x00#8, 0x00#8, 0x01#8], [0x48#8, 0x93#8, 0xFF#8], [0xFF#8, 0xFF#8, 0xE0#8]] := by decide
theorem test_sobel : rowsOf (sized 3 3) (pixelSobel (sized 3 3)
      (img [[0x00#8, 0x24#8, 0x49#8], [0x6D#8, 0x92#8, 0xB6#8], [0xDB#8, 0xFF#8, 0xE0#8]])) =
    [[0x48#8, 0x49#8, 0x49#8], [0x6D#8, 0x69#8, 0x60#8], [0x49#8, 0x49#8, 0x31#8]] := by decide

/-! ### One engine step of each command on image `C` (V2, V3, V4, V5, V6: the first output byte) -/

theorem test_step_invb : written 0x200 (running (.invb false 0#8)) = some 0x1F#8 := by decide
theorem test_step_invc : written 0x200 (running (.invc false 0#8)) = some 0x1F#8 := by decide
theorem test_step_bw : written 0x200 (running (.bw false 0xDF#8)) = some 0xFF#8 := by decide
theorem test_step_mirr : written 0x200 (running (.mirr false 0#8)) = some 0x1C#8 := by decide
theorem test_step_blur : written 0x200 (running (.blur false 0#8)) = some 0x64#8 := by decide
theorem test_step_sharp : written 0x200 (running (.sharp false 0#8)) = some 0xE0#8 := by decide
theorem test_step_sobel : written 0x200 (running (.sobel false 0#8)) = some 0xAD#8 := by decide
theorem test_step_gray : written 0x200 (running (.gray false 0#8)) = some 0x49#8 := by decide

/-! ### `CMD` writes: the rows of V7 -/

theorem test_v7_reserved : [0x10#32, 0x01000000#32, 0x200#32, 0x1F#32].map (statusAfter · ready) =
    [some 0x24#32, some 0x24#32, some 0x24#32, some 0x24#32] := by decide
theorem test_v7_illegal : [0x8#32, 0x108#32].map (statusAfter · ready) = [some 0x34#32, some 0x34#32] := by decide
theorem test_v7_null : statusAfter 0x104#32 (idleAt 0xFFFF#32 0xFFFF#32 []) = some 0x02#32 ∧
    readAfter 0x00 0x104#32 0x00 (idleAt 0xFFFF#32 0xFFFF#32 []) = some 0x104#32 := by decide
theorem test_v7_range : statusAfter 0x4#32 (idleAt 0xFFFC#32 0x0#32 []) = some 0x01#32 ∧
    statusAfter 0x4#32 (idleAt 0xFFFD#32 0x0#32 []) = some 0x44#32 ∧
    statusAfter 0x6#32 (idleAt 0x0#32 0xFFFD#32 []) = some 0x44#32 ∧
    statusAfter 0x4#32 (idleAt 0xFFFE#32 0xFFFE#32 []) = some 0x44#32 := by decide
theorem test_v7_overlap : statusAfter 0x4#32 (idleAt 0x100#32 0x103#32 []) = some 0x54#32 ∧
    statusAfter 0x4#32 (idleAt 0x100#32 0x104#32 []) = some 0x01#32 ∧
    statusAfter 0x4#32 (idleAt 0x104#32 0x100#32 []) = some 0x01#32 ∧
    statusAfter 0x0#32 (idleAt 0x100#32 0x101#32 []) = some 0x54#32 := by decide
theorem test_v7_in_place : [0x0#32, 0x00800002#32, 0x7#32, 0x3#32].map (statusAfter · inPlace) =
    [some 0x01#32, some 0x01#32, some 0x01#32, some 0x54#32] := by decide
theorem test_v7_thresh_ignored : statusAfter 0x00FF0004#32 ready = some 0x01#32 ∧
    readAfter 0x00 0x00FF0004#32 0x00 ready = some 0x00FF0004#32 := by decide
theorem test_v7_busy : statusAfter 0xFFFFFFFF#32 (running (.invb false 0#8)) = some 0x15#32 ∧
    readAfter 0x00 0xFFFFFFFF#32 0x00 (running (.invb false 0#8)) = some 0x0#32 := by decide
theorem test_v7_clears_first : statusAfter 0x0#32 (afterIdleRefusal 5#4 ready) = some 0x01#32 := by decide

/-! ### Registers: V8, V1, V9 -/

/-- A block whose `STATUS` reads as given. -/
def withStatus (busy done err : Bool) (code : BitVec 4) : State :=
  { ready with blk := { ready.blk with busy := busy, done := done, err := err, errcode := code } }

theorem test_v8 : readAfter 0x0C 0x2#32 0x0C (withStatus false true true 1#4) = some 0x14#32 ∧
    readAfter 0x0C 0x4#32 0x0C (withStatus false true true 1#4) = some 0x02#32 ∧
    readAfter 0x0C 0x6#32 0x0C (withStatus false true true 1#4) = some 0x00#32 ∧
    readAfter 0x0C 0x6#32 0x0C (withStatus true false true 1#4) = some 0x01#32 ∧
    readAfter 0x0C 0xFFFFFFF9#32 0x0C (withStatus false true false 0#4) = some 0x02#32 ∧
    readAfter 0x0C 0xF0#32 0x0C (withStatus false false true 5#4) = some 0x54#32 := by decide
theorem test_v1_decode : [0xB6#32, 0xFF#32, 0x5A#32, 0xFFFFFF80#32].map (readAfter 0x10 · 0x14 ready) =
    [some 0x00020505#32, some 0x00030707#32, some 0x00020602#32, some 0x00000004#32] := by decide
theorem test_v1_encode : [0x00020505#32, 0x00040809#32, 0x00FFFFFF#32, 0xAB000000#32].map (readAfter 0x18 · 0x1C ready) =
    [some 0xB6#32, some 0x20#32, some 0xFF#32, some 0x00#32] := by decide
theorem test_v1_channels : readAfter 0x18 0x00040809#32 0x18 ready = some 0x00040809#32 ∧
    readAfter 0x18 0xAB000000#32 0x18 ready = some 0x00000000#32 := by decide
theorem test_param : regValue ready 0x20 = 0x00020002#32 := by decide
/-- V9: two steps of INVB, then reset. -/
theorem test_v9 : ((next? (run 3 (withSched [.engine, .engine, .reset] (running (.invb false 0#8))))).map fun s =>
    (s.blk, [0x200, 0x201, 0x202, 0x203].map s.mem.read)) = some (Block.reset, [0x1F#8, 0xE3#8, 0x00#8, 0x00#8]) := by
  decide

/-! ### Memory, the register port and the other agents -/

theorem test_mem_last_byte : (memOf 0xFFFF [0x5A#8]).read 0xFFFF = 0x5A#8 ∧ (memOf 0xFFFF [0x5A#8]).read 0 = 0x00#8 := by decide
theorem test_mem_canonical : ((memOf 0x100 imageC).write 0x101 0x00#8) = [(0x100, 0xE0#8), (0x102, 0x03#8)] := by decide
theorem test_mem_wf : Memory.wf ready.mem := by decide
theorem test_addr_bits : readAfter 0x04 0x12345678#32 0x04 ready = some 0x5678#32 := by decide
theorem test_wrong_size : refusal? (hostOp (.busWr 0x0C [0x06#8, 0x00#8]) ready) = some .registerAccess := by decide
theorem test_straddles_base : refusal? (hostOp (.busRd 0x0E 4) { ready with build := { ready.build with engineBase := 0x10 } }) =
    some .registerAccess := by decide
theorem test_bus_little : (next? (hostOp (.busWr 0x18 [0x05#8, 0x06#8, 0x02#8, 0x00#8]) ready)).map (regValue · 0x18) =
    some 0x00020605#32 := by decide
theorem test_no_such_address : fault? (hostOp (.memRd 0x10000) ready) = some .addressOutsideSpace := by decide
theorem test_poll_misaligned : refusal? (hostOp (.poll 0x0E 0 1 0) ready) = some .registerAccess := by decide
theorem test_poll_waits : step (withHost [opPollDone 1] ready) = .next (withHost [opPollDone 1] ready) := rfl
theorem test_reset_step : (next? (step (withSched [.reset] (running (.blur false 0#8))))).map (·.blk) = some Block.reset := by decide
/-- R59: a command after reset does not use a draw made before it. -/
theorem test_reset_draws_afresh :
    (next? (step (withSched [.reset] (running (.blur false 0#8))))).map (·.tick) = some ((running (.blur false 0#8)).tick + 1) := by
  decide
theorem test_fetch_word : (next? (step (State.withFetchWord ready 32 0x00000004))).map (·.blk.busy) = some true := by decide

/-! ### Witnesses: for each statement with hypotheses, a state and operands that meet them all

`ready` and `running` are idle and busy states of a 2 × 2 build; the boundary values of a range stand beside each other. -/

theorem plain_nil {b : Build} (h : b.devices = []) (base : Nat) : PlainRegion b base := by
  intro k _; simp [isDevice, h]

theorem acceptable_ready (op : Op) : Acceptable op ready :=
  ⟨rfl, ⟨by decide, by decide, .inl (by decide)⟩, plain_nil rfl _, plain_nil rfl _⟩

theorem bases_answer_ready : BasesAnswer ready :=
  ⟨by unfold AnsweringRegion; decide, by unfold AnsweringRegion; decide⟩

theorem run_answers_running (i : Instr) : RunAnswers (running i) := ⟨bases_answer_ready.1, bases_answer_ready.2⟩

/-- `running (.invb …)` meets the invariant. -/
theorem inv_running : MachineInv (running (.invb false 0#8)) where
  build := by decide
  memWf := by decide
  memSpace := by decide
  srcBase := by decide
  dstBase := by decide
  src := by decide
  dst := by decide
  noErr := fun _ => rfl
  hasErr := by decide
  command := ⟨.invb false 0#8, by decide, rfl, rfl⟩
  prog := by decide
  running := fun _ =>
    ⟨by decide, ⟨.invb, rfl, (acceptable_ready .invb).regions⟩, plain_nil rfl _, plain_nil rfl _, by decide, rfl⟩
  dirty := by decide

theorem witness_EncodeOfDecodeIsTheWord : decode 0x00FF0107#32 = .command (.gray true 0xFF#8) := by decide

theorem witness_DecodeIsTotalInThreeOutcomes :
    (0x00000010#32 &&& 0xFF00FEF0#32 ≠ 0#32 ∧ 0xFF000000#32 &&& 0xFF00FEF0#32 ≠ 0#32) ∧
    (0x00FF0108#32 &&& 0xFF00FEF0#32 = 0#32 ∧ 8 ≤ ((0x00FF0108#32).extractLsb' 0 4).toNat) ∧
    (0x00FF0107#32 &&& 0xFF00FEF0#32 = 0#32 ∧ ((0x00FF0107#32).extractLsb' 0 4).toNat < 8) := by decide

/-- The host writes `v` to `CMD` next, by offset. -/
def writesCmd (v : Word) (s : State) : State := withSched [.host] (withHost [.wr 0x00 v] s)

theorem writesCmd_hostWrites (v : Word) (s : State) : HostWrites (writesCmd v s) 0x00 v := ⟨rfl, [], .inl rfl⟩

theorem witness_StepRunsTheDecodedCommand :
    decodeTableWord 32 0x00000003 = some (.mirr false 0#8) ∧
    (HostWrites (writesCmd 0x3#32 ready) 0 0x3#32 ∧ decode 0x3#32 = .command (.mirr false 0#8)) ∧
    HostWrites (withSched [.host] (withHost [.busWr 0x00 [0x03#8, 0x00#8, 0x00#8, 0x00#8]] ready)) 0 0x3#32 ∧
    (HostWrites (writesCmd 0x8#32 ready) 0 0x8#32 ∧ decode 0x8#32 = .refused .illegalOp) :=
  ⟨by decide, ⟨writesCmd_hostWrites _ _, by decide⟩, ⟨rfl, [], .inr ⟨_, rfl, rfl, by decide⟩⟩, writesCmd_hostWrites _ _, by decide⟩

theorem witness_CommandWriteFollowsThePseudocode :
    (running (.invb false 0#8)).blk.busy = true ∧ ready.blk.busy = false ∧
    0x00000010#32 &&& 0xFF00FEF0#32 ≠ 0#32 ∧
    (0x00FF0108#32 &&& 0xFF00FEF0#32 = 0#32 ∧ 8 ≤ (0x00FF0108#32).toNat % 16) ∧
    (0x00000107#32 &&& 0xFF00FEF0#32 = 0#32 ∧ (0x00000107#32).toNat % 16 < 8 ∧ (0x00000107#32).getLsbD 8 = true) ∧
    ((idleAt 0xFFFD#32 0#32 []).blk.busy = false ∧ (0x00000004#32).getLsbD 8 = false ∧ 0xFFFD + 4 > 2 ^ 16) ∧
    ((idleAt 0x100#32 0x103#32 []).blk.busy = false ∧ ¬(0x103 + 4 > 2 ^ 16) ∧ 0x100 < 0x103 + 4 ∧ 0x103 < 0x100 + 4) ∧
    (PlainRegion ready.build 0x100 ∧ PlainRegion ready.build 0x200) :=
  ⟨rfl, rfl, by decide, by decide, by decide, ⟨rfl, by decide, by decide⟩, ⟨rfl, by decide, by decide, by decide⟩,
    plain_nil rfl _, plain_nil rfl _⟩

/-- The hypotheses of the statements of the eight commands, those of BW with `BW_CMP = GT`. -/
theorem witness_Commands (op : Op) :
    ready.build.wf ∧ ready.mem.wf ∧ Acceptable op ready ∧ BasesAnswer ready ∧ ready.build.bwCmp = .gt :=
  ⟨by decide, by decide, acceptable_ready op, bases_answer_ready, rfl⟩

/-- BW with `BW_CMP = GE`. -/
theorem witness_BwComparesTheRawByte_ge :
    let s : State := { ready with build := { ready.build with bwCmp := .ge } }
    s.build.wf ∧ s.mem.wf ∧ Acceptable .bw s ∧ BasesAnswer s ∧ s.build.bwCmp = .ge :=
  ⟨by decide, by decide, ⟨rfl, ⟨by decide, by decide, .inl (by decide)⟩, plain_nil rfl _, plain_nil rfl _⟩,
    ⟨by unfold AnsweringRegion; decide, by unfold AnsweringRegion; decide⟩, rfl⟩

/-- A point filter in place is acceptable too. -/
theorem witness_in_place : Acceptable .gray inPlace ∧ BasesAnswer inPlace :=
  ⟨⟨rfl, ⟨by decide, by decide, .inr (.inr ⟨rfl, rfl⟩)⟩, plain_nil rfl _, plain_nil rfl _⟩,
    ⟨by unfold AnsweringRegion; decide, by unfold AnsweringRegion; decide⟩⟩

/-- Equal regions, and regions that share one byte. -/
theorem witness_MirrFlipsEachRow : ∀ s ∈ [inPlace, idleAt 0x100#32 0x103#32 []], s.blk.busy = false ∧
    s.blk.srcBase.toNat + s.build.pixels ≤ s.build.space ∧ s.blk.dstBase.toNat + s.build.pixels ≤ s.build.space ∧
    s.blk.srcBase.toNat < s.blk.dstBase.toNat + s.build.pixels ∧
    s.blk.dstBase.toNat < s.blk.srcBase.toNat + s.build.pixels := by decide

/-- A 1 × 1 image is an image of one value. -/
theorem witness_one_value : (sized 1 1).wf ∧ ∀ u < (sized 1 1).width, ∀ v < (sized 1 1).height, img [[0x5A#8]] u v = 0x5A#8 := by
  decide

theorem witness_WindowsReplicateTheBorder :
    (1 ≤ 0 + 1 ∧ 0 + 1 ≤ (sized 2 2).width ∧ 1 ≤ 1 + 1 ∧ 1 + 1 ≤ (sized 2 2).height) ∧
    (2 ≤ (sized 2 2).width ∧ 2 ≤ (sized 2 2).height ∧ 0 + 1 < (sized 2 2).width ∧
      1 + 1 = (sized 2 2).width ∧ 0 + 2 = (sized 2 2).width) := by decide

theorem witness_NullDestinationCompletesAtOnce :
    (Instr.blur true 0#8).nulldst = true ∧ (idleAt 0xFFFF#32 0xFFFF#32 []).blk.busy = false := ⟨rfl, rfl⟩

theorem witness_BusyRefusalDoesNotDisturbTheRun : (running (.blur false 0#8)).blk.busy = true := rfl

/-- A region one byte too long, and two regions sharing one byte, for MIRR; one region for BLUR; a shifted one for INVB. -/
theorem witness_BadRegionsAreRefused :
    ((idleAt 0#32 0xFFFD#32 []).blk.busy = false ∧ 0xFFFD + (sized 2 2).pixels > (sized 2 2).space) ∧
    (0x100 + (sized 2 2).pixels ≤ (sized 2 2).space ∧ 0x103 + (sized 2 2).pixels ≤ (sized 2 2).space ∧
      0x100 < 0x103 + (sized 2 2).pixels ∧ 0x103 < 0x100 + (sized 2 2).pixels ∧
      ¬(Op.mirr.isPoint = true ∧ 0x100 = 0x103) ∧ ¬(Op.invb.isPoint = true ∧ 0x100 = 0x103) ∧
      ¬(Op.blur.isPoint = true ∧ 0x100 = 0x100)) := ⟨⟨rfl, by decide⟩, by decide⟩

/-- `ready` with a side-effect device at the last byte of its destination. -/
def besideDevice : State := { ready with build := { ready.build with devices := [⟨0x203, 1⟩] } }

theorem not_plain_besideDevice : ¬PlainRegion besideDevice.build besideDevice.blk.dstBase.toNat :=
  fun h => absurd (h 3 (by decide)) (by decide)

theorem witness_OnlySideEffectRegionsAreRefused :
    besideDevice.blk.busy = false ∧ (Instr.blur false 0#8).nulldst = false ∧
    RegionsOk besideDevice.build .blur besideDevice.blk.srcBase.toNat besideDevice.blk.dstBase.toNat ∧
    0 < besideDevice.build.pixels ∧
    ¬(PlainRegion besideDevice.build besideDevice.blk.srcBase.toNat ∧
      PlainRegion besideDevice.build besideDevice.blk.dstBase.toNat) ∧
    exec (.blur false 0#8) besideDevice = .refused .deviceRegion :=
  ⟨rfl, rfl, ⟨by decide, by decide, .inl (by decide)⟩, by decide, fun h => not_plain_besideDevice h.2, rfl⟩

theorem witness_CommandWriteFrame :
    exec (.sobel false 0#8) ready = .next (running (.sobel false 0#8)) ∧
    exec (.mirr false 0#8) inPlace = .next (afterIdleRefusal 5#4 inPlace) ∧ (afterIdleRefusal 5#4 inPlace).blk.err = true ∧
    exec (.mirr false 0#8) (running (.blur false 0#8)) = .next (afterBusyRefusal (running (.blur false 0#8))) :=
  ⟨rfl, rfl, rfl, rfl⟩

/-- The same run, at its last pixel. -/
def atLast (i : Instr) : State := { running i with blk := { (running i).blk with prog := 3 } }

/-- The same run, after another agent wrote the first source byte. -/
def disturbed (i : Instr) : State := { running i with dirty := [0x100] }

theorem witness_EngineStepWritesOnePixel :
    ready.blk.busy = false ∧
    ((running (.blur false 0#8)).blk.busy = true ∧ Op.ofCode (running (.blur false 0#8)).blk.latOp = some .blur ∧
      (running (.blur false 0#8)).build.wf ∧ (running (.blur false 0#8)).mem.wf ∧
      (running (.blur false 0#8)).blk.prog < (running (.blur false 0#8)).build.pixels ∧
      (∀ q ∈ mayDependOn (sized 2 2) .blur 0 0, pixaddr (sized 2 2) 0x100 q.1 q.2 ∉ (running (.blur false 0#8)).dirty)) ∧
    RunAnswers (running (.blur false 0#8)) ∧
    (∃ q ∈ mayDependOn (sized 2 2) .blur 0 0, pixaddr (sized 2 2) 0x100 q.1 q.2 ∈ (disturbed (.blur false 0#8)).dirty) ∧
    (atLast (.blur false 0#8)).blk.prog + 1 = (atLast (.blur false 0#8)).build.pixels :=
  ⟨rfl, by decide, run_answers_running _, by decide, by decide⟩

/-- The run with one byte of memory that does not answer: the destination's first byte, or the source's. -/
def unanswered (a : Nat) : State :=
  { running (.blur false 0#8) with build := { (sized 2 2) with memOK := [⟨0, a⟩, ⟨a + 1, 0x10000 - (a + 1)⟩] } }

theorem unanswered_dst : Unanswered (unanswered 0x200) .blur := .inl (by decide)
theorem unanswered_src : Unanswered (unanswered 0x100) .blur := .inr (by decide)

/-- The destination's first byte and the source's; a host that polls `BUSY`, one that writes `CMD`, one that has nothing to do;
another master's write. -/
theorem witness_UnansweredEngineIsStuckForGood :
    (∀ a ∈ [0x100, 0x200], (unanswered a).blk.busy = true ∧ Op.ofCode (unanswered a).blk.latOp = some .blur ∧
      (unanswered a).outside.program = [] ∧ (unanswered a).outside.sched = []) ∧
    Unanswered (unanswered 0x200) .blur ∧ Unanswered (unanswered 0x100) .blur ∧
    ∀ s ∈ [withHost [opPollBusy 0] (unanswered 0x200), writesCmd 0x3#32 (unanswered 0x200),
        withSched [.engine, .masterWrite 0x101 0x5A#8] (unanswered 0x200)],
      nextTurn s ≠ .reset ∧ .reset ∉ s.outside.sched ∧ (next? (step s)).isSome = true ∧ (next? (run 2 s)).isSome = true :=
  ⟨by decide, unanswered_dst, unanswered_src, by decide⟩

theorem witness_EngineStaysInItsRegions : MachineInv (running (.invb false 0#8)) ∧
    (running (.invb false 0#8)).blk.busy = true ∧ Op.ofCode (running (.invb false 0#8)).blk.latOp = some .invb :=
  ⟨inv_running, rfl, rfl⟩

theorem witness_InterruptedRunLeavesARowMajorPrefix (op : Op) :
    ready.build.wf ∧ ready.mem.wf ∧ Acceptable op ready ∧ BasesAnswer ready ∧ 0 ≤ ready.build.pixels ∧ 4 ≤ ready.build.pixels :=
  ⟨by decide, by decide, acceptable_ready op, bases_answer_ready, by decide, by decide⟩

theorem witness_CommandIsOneAtomicTransition :
    let s := withHost [opWR .cmd (encode (.sharp false 0#8))] ready
    s.build.wf ∧ s.mem.wf ∧ (Instr.sharp false 0#8).nulldst = false ∧ Acceptable .sharp s ∧ BasesAnswer s ∧
    s.outside.program = opWR .cmd (encode (.sharp false 0#8)) :: [] ∧ s.outside.sched = [] :=
  ⟨by decide, by decide, rfl, ⟨rfl, (acceptable_ready .sharp).regions, plain_nil rfl _, plain_nil rfl _⟩,
    ⟨bases_answer_ready.1, bases_answer_ready.2⟩, rfl, rfl⟩

theorem witness_FilterSequenceFiltersTheImage :
    let s := withHost (opsFILTER (.blur false 0#8) 0x100#32 0x200#32) ready
    s.build.wf ∧ s.mem.wf ∧ s.blk.busy = false ∧ (Instr.blur false 0#8).nulldst = false ∧
    RegionsOk s.build .blur (0x100#32).toNat (0x200#32).toNat ∧
    PlainRegion s.build (0x100#32).toNat ∧ PlainRegion s.build (0x200#32).toNat ∧
    AnsweringRegion s.build (0x100#32).toNat ∧ AnsweringRegion s.build (0x200#32).toNat ∧
    s.outside.program = opsFILTER (.blur false 0#8) 0x100#32 0x200#32 ++ [] ∧ s.outside.sched = [] :=
  ⟨by decide, by decide, rfl, rfl, (acceptable_ready .blur).regions, plain_nil rfl _, plain_nil rfl _,
    bases_answer_ready.1, bases_answer_ready.2, rfl, rfl⟩

/-- INVB from 0x100 to 0x200, then MIRR to 0x300, as in program P1 of 95_test_vectors.md. -/
theorem witness_FilterSequencesCompose :
    let i := Instr.invb false 0#8
    let j := Instr.mirr false 0#8
    let s := withHost (opsFILTER i 0x100#32 0x200#32 ++ (opsFILTER j 0x200#32 0x300#32 ++ [])) ready
    s.build.wf ∧ s.mem.wf ∧ s.blk.busy = false ∧ i.nulldst = false ∧ j.nulldst = false ∧
    RegionsOk s.build i.op (0x100#32).toNat (0x200#32).toNat ∧ RegionsOk s.build j.op (0x200#32).toNat (0x300#32).toNat ∧
    (∀ base ∈ [(0x100#32).toNat, (0x200#32).toNat, (0x300#32).toNat],
      PlainRegion s.build base ∧ AnsweringRegion s.build base) ∧
    s.outside.program = opsFILTER i 0x100#32 0x200#32 ++ (opsFILTER j 0x200#32 0x300#32 ++ []) ∧ s.outside.sched = [] := by
  refine ⟨by decide, by decide, rfl, rfl, rfl, ⟨by decide, by decide, .inl (by decide)⟩,
    ⟨by decide, by decide, .inl (by decide)⟩, ?_, rfl, rfl⟩
  intro base hb
  refine ⟨plain_nil rfl _, ?_⟩
  unfold AnsweringRegion
  revert base
  decide

/-- The state after one engine step of INVB. -/
def stepped : State := writePixel (running (.invb false 0#8)) .invb

theorem engineStep_running : engineStep (running (.invb false 0#8)) = some stepped := rfl

theorem witness_EngineNeverWritesItsSource : MachineInv (running (.invb false 0#8)) ∧
    (running (.invb false 0#8)).blk.busy = true ∧
    (running (.invb false 0#8)).blk.src ≠ (running (.invb false 0#8)).blk.dst ∧
    engineStep (running (.invb false 0#8)) = some stepped := ⟨inv_running, rfl, by decide, engineStep_running⟩

theorem witness_BuildsAreLegal : (running (.invb false 0#8)).build.wf ∧
    engineStep (running (.invb false 0#8)) = some stepped := ⟨by decide, engineStep_running⟩

theorem witness_SourceWriteOpensDependentOutputs :
    ((running (.invb false 0#8)).mem.wf ∧ answers (running (.invb false 0#8)).build 0x103 = true ∧
      isDevice (running (.invb false 0#8)).build 0x103 = false ∧ (running (.invb false 0#8)).blk.busy = true ∧
      (running (.invb false 0#8)).blk.src.toNat ≤ 0x103 ∧
      0x103 < (running (.invb false 0#8)).blk.src.toNat + (running (.invb false 0#8)).build.pixels) ∧
    ((disturbed (.blur false 0#8)).mem.wf ∧ Op.ofCode (disturbed (.blur false 0#8)).blk.latOp = some .blur ∧
      ∃ q ∈ mayDependOn (sized 2 2) .blur 0 0, pixaddr (sized 2 2) 0x100 q.1 q.2 ∈ (disturbed (.blur false 0#8)).dirty) ∧
    ∃ u, engineStep (disturbed (.blur false 0#8)) = some u :=
  ⟨by decide, by decide, _, rfl⟩

/-- The run after two pixels; then another agent writes destination byte `k`, before and behind the engine. -/
theorem witness_DestinationWriteIsARace :
    let s : State := { running (.invb false 0#8) with blk := { (running (.invb false 0#8)).blk with prog := 2 } }
    MachineInv s ∧ s.blk.busy = true ∧ Op.ofCode s.blk.latOp = some .invb ∧ s.blk.src ≠ s.blk.dst ∧ s.dirty = [] ∧
    (∀ k ∈ [0, 1, 2, 3], k < s.build.pixels ∧
      ∃ t u, outsideWrite (s.blk.dst.toNat + k) 0x5A#8 s = .next t ∧ engineRun (s.build.pixels - s.blk.prog) t = some u) := by
  refine ⟨?_, rfl, rfl, by decide, rfl, ?_⟩
  · have h := inv_running
    exact ⟨h.build, h.memWf, h.memSpace, h.srcBase, h.dstBase, h.src, h.dst, h.noErr, h.hasErr, h.command, by decide,
      fun _ => ⟨by decide, (h.running rfl).regions, plain_nil rfl _, plain_nil rfl _, by decide, rfl⟩, h.dirty⟩
  · intro k hk
    simp only [List.mem_cons, List.not_mem_nil, or_false] at hk
    rcases hk with rfl | rfl | rfl | rfl <;> exact ⟨by decide, _, _, rfl, rfl⟩

theorem witness_RegisterReadsChangeNothing :
    let s := withSched [.host] (withHost [.rd 0, .rd 60] ready)
    (0 < 64 ∧ 0 % 4 = 0 ∧ 60 < 64 ∧ 60 % 4 = 0) ∧ nextTurn s = .host ∧ s.outside.program = .rd 0 :: [.rd 60] :=
  ⟨by decide, rfl, rfl⟩

/-- `ready` with the window at 0x10. -/
def based : State := { ready with build := { ready.build with engineBase := 0x10 } }

theorem witness_OnlyAlignedWordsReachTheRegisters :
    (¬(64 < 64 ∧ 64 % 4 = 0) ∧ ¬(1 < 64 ∧ 1 % 4 = 0)) ∧
    (0x4F < based.build.engineBase + 64 ∧ based.build.engineBase < 0x4F + [0#8].length ∧
      ¬(based.build.engineBase ≤ 0x4F ∧ (0x4F - based.build.engineBase) % 4 = 0 ∧ [0#8].length = 4)) ∧
    (0x0D < based.build.engineBase + 64 ∧ based.build.engineBase < 0x0D + 4 ∧
      ¬(based.build.engineBase ≤ 0x0D ∧ (0x0D - based.build.engineBase) % 4 = 0 ∧ 4 = 4)) ∧
    (60 < 64 ∧ 60 % 4 = 0 ∧ 0 < 64 ∧ 0 % 4 = 0) ∧
    (0x0C + 4 ≤ based.build.engineBase ∧ based.build.engineBase + 64 ≤ 0x50) ∧
    (0x0C + [0#8, 0#8, 0#8, 0#8].length ≤ based.build.engineBase ∧ based.build.engineBase + 64 ≤ 0x50) := by decide

theorem witness_PollingDoneAfterARefusalSpins :
    let s := withHost [opPollDone 1] (afterIdleRefusal 5#4 ready)
    s.blk.busy = false ∧ s.blk.done = false ∧ s.outside.sched = [] ∧ s.outside.program = opPollDone 1 :: [] :=
  ⟨rfl, rfl, rfl, rfl⟩

theorem witness_ResetClearsTheBlock : nextTurn (withSched [.reset] (running (.blur false 0#8))) = .reset := rfl

theorem witness_ResetStateMeetsTheInvariant :
    Build.wf (sized 1 1) ∧ Build.wf { sized 65535 65535 with addrBits := 32 } ∧ Build.wf { sized 2 1 with addrBits := 1 } := by
  decide

theorem witness_EveryStepKeepsTheInvariant :
    MachineInv (running (.invb false 0#8)) ∧ step (running (.invb false 0#8)) = .next (popTurn stepped) := ⟨inv_running, rfl⟩

theorem witness_BuildIsConstant : step (running (.invb false 0#8)) = .next (popTurn stepped) := rfl

/-- The engine, the host and another master each change a byte. -/
theorem witness_MemoryChangesOnlyByItsWriters :
    (running (.invb false 0#8)).mem.wf ∧
    ∀ s ∈ [running (.invb false 0#8), withSched [.host] (withHost [.memWr 0x200 0x5A#8] ready),
        withSched [.masterWrite 0x200 0x5A#8] ready],
      ((next? (step s)).map (·.mem.read 0x200)).isSome = true ∧
      (next? (step s)).map (·.mem.read 0x200) ≠ some (s.mem.read 0x200) := by decide

/-- A step in which each of the flags changes each way. -/
theorem witness_FlagsChangeOnlyByTheirEvents :
    (ready.blk.busy = false ∧ (next? (step (writesCmd 0x4#32 ready))).map (·.blk.busy) = some true) ∧
    ((atLast (.invb false 0#8)).blk.busy = true ∧ (atLast (.invb false 0#8)).blk.done = false ∧
      (next? (step (atLast (.invb false 0#8)))).map (fun t => (t.blk.busy, t.blk.done)) = some (false, true)) ∧
    ((afterNull (.blur true 0#8) ready).blk.done = true ∧
      (next? (step (writesCmd 0x8#32 (afterNull (.blur true 0#8) ready)))).map (fun t => (t.blk.done, t.blk.err)) =
        some (false, true)) ∧
    ((afterIdleRefusal 5#4 ready).blk.err = true ∧
      (next? (step (withSched [.host] (withHost [opWR .status 0x6#32] (afterIdleRefusal 5#4 ready))))).map (·.blk.err) =
        some false) := by decide

theorem witness_LastPixelAgainstTheHostInBothOrders :
    (∀ l ∈ [[Turn.host, .engine], [.engine, .host]], ∀ op ∈ [opWR .status 0x2#32, opWR .cmd 0xFFFFFFFF#32,
        opWR .cmd (encode (.invb true 0#8)), opWR .cmd (encode (.blur false 0#8))],
      let s := withSched l (withHost [op] (atLast (.invb false 0#8)))
      s.blk.busy = true ∧ s.blk.prog + 1 = s.build.pixels ∧ s.outside.program = [op] ∧ s.outside.sched = l ∧
      (engineStep s).isSome = true) ∧
    (Instr.invb true 0#8).nulldst = true ∧ (Instr.blur false 0#8).nulldst = false ∧
    RegionsOk (sized 2 2) .blur (atLast (.invb false 0#8)).blk.srcBase.toNat (atLast (.invb false 0#8)).blk.dstBase.toNat ∧
    PlainRegion (sized 2 2) (atLast (.invb false 0#8)).blk.srcBase.toNat ∧
    PlainRegion (sized 2 2) (atLast (.invb false 0#8)).blk.dstBase.toNat :=
  ⟨by decide, rfl, rfl, (acceptable_ready .blur).regions, plain_nil rfl _, plain_nil rfl _⟩

theorem witness_OutsideMemoryAccesses :
    (answers besideDevice.build 0xFFFF = true ∧ isDevice besideDevice.build 0xFFFF = false) ∧
    besideDevice.build.space ≤ 0x10000 ∧
    (0x200 < (unanswered 0x200).build.space ∧ answers (unanswered 0x200).build 0x200 = false) ∧
    (answers besideDevice.build 0x203 = true ∧ isDevice besideDevice.build 0x203 = true) := by decide

end Sys2Proof.Tests
end

section
/-! PROOFS. The invariant of the machine: what each kind of step keeps of it, and that every step keeps it (R89). -/

namespace Sys2Proof.Machine

/-! ### Facts about the shared operations -/

theorem answers_lt_space {b : Build} {a : Nat} (h : answers b a = true) : a < b.space := by
  simp only [answers, inSpace, Bool.and_eq_true, decide_eq_true_eq] at h
  exact h.1

theorem one_le_pixels {b : Build} (h : b.wf) : 1 ≤ b.pixels :=
  Nat.mul_pos h.1.1 h.2.1.1

theorem space_pos (b : Build) : 0 < b.space := Nat.two_pow_pos _

/-- What an address register stores is the word modulo `2^AW` (R18). -/
theorem truncAddr_toNat (b : Build) (v : Word) : (truncAddr b v).toNat = v.toNat % b.space := by
  rw [truncAddr, BitVec.toNat_ofNat]
  exact Nat.mod_eq_of_lt ((Nat.mod_le _ _).trans_lt v.isLt)

theorem truncAddr_lt_space (b : Build) (v : Word) : (truncAddr b v).toNat < b.space :=
  truncAddr_toNat b v ▸ Nat.mod_lt _ (space_pos b)

/-- The codes held in `ERRCODE` are 1 to 5 (R82). -/
theorem errorCode_range (e : ErrCode) : 1 ≤ (errorCode e).toNat ∧ (errorCode e).toNat ≤ 5 := by
  cases e <;> decide

theorem mem_insertAddr {a x : Nat} {l : List Nat} (h : x ∈ insertAddr a l) : x = a ∨ x ∈ l := by
  induction l with
  | nil => simpa [insertAddr] using h
  | cons k l ih =>
    unfold insertAddr at h
    split_ifs at h
    · simpa using h
    · exact .inr h
    · rcases List.mem_cons.1 h with rfl | h
      · simp
      · exact (ih h).imp_right (List.mem_cons_of_mem _)

/-- Adding an address keeps the list strictly rising. -/
theorem insertAddr_pairwise {l : List Nat} (h : l.Pairwise (· < ·)) (a : Nat) :
    (insertAddr a l).Pairwise (· < ·) := by
  induction l with
  | nil => simp [insertAddr]
  | cons k l ih =>
    obtain ⟨hk, hl⟩ := List.pairwise_cons.1 h
    unfold insertAddr
    split_ifs with h1 h2
    · refine List.pairwise_cons.2 ⟨?_, h⟩
      intro x hx
      rcases List.mem_cons.1 hx with rfl | hx
      · exact h1
      · exact h1.trans (hk x hx)
    · exact h
    · refine List.pairwise_cons.2 ⟨?_, ih hl⟩
      intro x hx
      rcases mem_insertAddr hx with rfl | hx
      · omega
      · exact hk x hx

/-- The engine's turn is its step, or leaves the state as it is (R58, log 8). -/
theorem engineTurn_cases (s : State) :
    engineTurn s = s ∨ ∃ op, s.blk.busy = true ∧ engineTurn s = writePixel s op := by
  unfold engineTurn
  cases he : engineStep s with
  | none => exact .inl rfl
  | some u =>
    obtain ⟨hb, op, -, -, rfl⟩ := engineStep_eq_some_iff.1 he
    exact .inr ⟨op, hb, rfl⟩

/-- The operands latched from a decoded command are those of its word (R28, R48). -/
theorem decode_cmdWord (op : Op) (n : Bool) (t : Byte) : decode (cmdWord op.code n t) = .command (op.instr n t) := by
  simp [decode, reserved_cmdWord, opField_cmdWord, nulldstField_cmdWord, threshField_cmdWord]

/-! ### Each update keeps the invariant -/

section updates
variable {s : State}

/-- The other agents' records play no part in the invariant. -/
theorem MachineInv.withOutside (h : MachineInv s) (o : Outside) : MachineInv { s with outside := o } :=
  { h with running := fun hb => { h.running hb with } }

theorem MachineInv.popTurn (h : MachineInv s) : MachineInv (popTurn s) := h.withOutside _

theorem MachineInv.popOp (h : MachineInv s) : MachineInv (popOp s) := h.withOutside _

/-- R37, R100: another agent's write at an address that exists. -/
theorem MachineInv.storeFromOutside (h : MachineInv s) {a : Nat} (ha : a < s.build.space) (v : Byte) :
    MachineInv (storeFromOutside a v s) :=
  { h with
    memWf := Memory.write_wf h.memWf a v
    memSpace := Memory.write_below h.memSpace ha v
    running := fun hb => { h.running hb with }
    dirty := by
      rw [storeFromOutside_dirty]
      split
      · exact insertAddr_pairwise h.dirty a
      · exact h.dirty }

/-- R83: raising an error. -/
theorem MachineInv.raiseError (h : MachineInv s) (e : ErrCode) : MachineInv (raiseError e s) :=
  { h with
    noErr := nofun
    hasErr := fun _ => errorCode_range e
    running := fun hb => { h.running hb with } }

/-- R55: an idle `CMD` write clears the flags first. -/
theorem MachineInv.clearStatus (h : MachineInv s) : MachineInv (clearStatus s) :=
  { h with
    noErr := fun _ => rfl
    hasErr := nofun
    running := fun hb => { h.running hb with notDone := rfl } }

/-- R57, R28: the operands of an idle block are latched. -/
theorem MachineInv.latch (h : MachineInv s) (hb : s.blk.busy = false) (op : Op) (n : Bool) (t : Byte) :
    MachineInv (latch op n t s) :=
  { h with
    src := h.srcBase
    dst := h.dstBase
    command := ⟨op.instr n t, decode_cmdWord op n t, by simp, by simp⟩
    running := fun hb' => absurd (hb.symm.trans hb') Bool.false_ne_true }

/-- R57: the completion of a null-destination command, in an idle block. -/
theorem MachineInv.completeNull (h : MachineInv s) (hb : s.blk.busy = false) : MachineInv (completeNull s) :=
  { h with running := fun hb' => absurd (hb.symm.trans hb') Bool.false_ne_true }

/-- R55 to R57: an accepted command runs with its regions checked, from pixel 0. -/
theorem MachineInv.accept (h : MachineInv s) {op : Op} (ha : Acceptable op s) (t : Byte) :
    MachineInv (startEngine (Machine.latch op false t (Machine.clearStatus s))) :=
  { h.clearStatus.latch ha.idle op false t with
    prog := Nat.zero_le _
    running := fun _ =>
      { prog := one_le_pixels h.build
        regions := ⟨op, Op.ofCode_code op, ha.regions⟩
        srcPlain := ha.srcPlain
        dstPlain := ha.dstPlain
        hasDst := nulldstField_cmdWord _ _ _
        notDone := rfl }
    dirty := .nil }

/-- R20: write one to clear. -/
theorem MachineInv.statusWrite (h : MachineInv s) (v : Word) : MachineInv (statusWrite v s) :=
  { h with
    noErr := by
      rw [statusWrite_blk]
      cases v.getLsbD 2
      · simpa using h.noErr
      · simp
    hasErr := by
      rw [statusWrite_blk]
      cases v.getLsbD 2
      · simpa using h.hasErr
      · simp
    running := fun hb => { h.running hb with notDone := by simp [(h.running hb).notDone] } }

/-- R18: a base register holds AW bits. -/
theorem MachineInv.writeSrcBase (h : MachineInv s) (v : Word) : MachineInv (writeSrcBase v s) :=
  { h with srcBase := truncAddr_lt_space _ v, running := fun hb => { h.running hb with } }

theorem MachineInv.writeDstBase (h : MachineInv s) (v : Word) : MachineInv (writeDstBase v s) :=
  { h with dstBase := truncAddr_lt_space _ v, running := fun hb => { h.running hb with } }

theorem MachineInv.writeCodecPix (h : MachineInv s) (v : Word) : MachineInv (writeCodecPix v s) :=
  { h with running := fun hb => { h.running hb with } }

theorem MachineInv.writeCodecCh (h : MachineInv s) (v : Word) : MachineInv (writeCodecCh v s) :=
  { h with running := fun hb => { h.running hb with } }

/-- R96: reset. -/
theorem MachineInv.resetBlock (h : MachineInv s) : MachineInv (resetBlock s) :=
  { h with
    srcBase := space_pos _
    dstBase := space_pos _
    src := space_pos _
    dst := space_pos _
    noErr := fun _ => rfl
    hasErr := nofun
    command := ⟨.invb false 0#8, show decode 0#32 = _ by decide, rfl, rfl⟩
    prog := Nat.zero_le _
    running := nofun
    dirty := .nil }

/-- R29, R58: the last pixel ends the command, any other leaves it running. -/
theorem MachineInv.advance (h : MachineInv s) (hb : s.blk.busy = true) : MachineInv (advance (s.blk.prog + 1) s) := by
  have hr := h.running hb
  have hp := hr.prog
  by_cases hlast : s.blk.prog + 1 = s.build.pixels
  · rw [Machine.advance, if_pos hlast]
    exact { h with prog := hp, running := nofun }
  · rw [Machine.advance, if_neg hlast]
    exact { h with prog := hp, running := fun _ => { hr with prog := lt_of_le_of_ne hp hlast } }

/-- R33, R58: the engine's pixel lies in its destination region, so inside the address space. -/
theorem MachineInv.writePixel (h : MachineInv s) (hb : s.blk.busy = true) (op : Op) : MachineInv (writePixel s op) := by
  have hr := h.running hb
  obtain ⟨_, -, hregions⟩ := hr.regions
  have ha : nextAddr s < s.build.space :=
    (Nat.add_lt_add_left hr.prog _).trans_le hregions.dstFits
  have hw : MachineInv { s with mem := s.mem.write (nextAddr s) (outputByte s op), tick := s.tick + 1 } :=
    { h with
      memWf := Memory.write_wf h.memWf _ _
      memSpace := Memory.write_below h.memSpace ha _
      running := fun _ => { hr with } }
  exact hw.advance hb

end updates

/-! ### Each agent's turn keeps the invariant -/

section turns
variable {s t : State}

/-- R55: a `CMD` write, whatever its word. -/
theorem MachineInv.cmdWrite (h : MachineInv s) {v : Word} (hw : cmdWrite v s = .next t) : MachineInv t := by
  rcases cmdWrite_cases hw with ⟨-, rfl⟩ | ⟨-, e, rfl⟩ | ⟨hb, i, -, -, rfl⟩ | ⟨-, i, -, -, ha, rfl⟩
  · exact h.raiseError .busy
  · exact h.clearStatus.raiseError e
  · exact (h.clearStatus.latch hb i.op true i.thresh).completeNull hb
  · exact h.accept ha i.thresh

theorem MachineInv.regWrite (h : MachineInv s) {off : Nat} {v : Word} (hw : regWrite off v s = .next t) :
    MachineInv t := by
  rcases regWrite_cases hw with ⟨-, hw⟩ | rfl | rfl | ⟨-, rfl⟩ | rfl | rfl | rfl
  · exact h.cmdWrite hw
  · exact h.writeSrcBase v
  · exact h.writeDstBase v
  · exact h.statusWrite v
  · exact h.writeCodecPix v
  · exact h.writeCodecCh v
  · exact h

theorem MachineInv.engineTurn (h : MachineInv s) : MachineInv (engineTurn s) := by
  rcases engineTurn_cases s with he | ⟨op, hb, he⟩
  · rw [he]; exact h
  · rw [he]; exact h.writePixel hb op

theorem MachineInv.step (h : MachineInv s) (hs : step s = .next t) : MachineInv t := by
  rcases step_cases hs with ⟨-, rfl | rfl⟩ | ⟨-, off, v, -, hw⟩ | ⟨-, w, rfl⟩ | ⟨-, a, v, rest, -, ha, -, rfl⟩ |
    ⟨-, rfl⟩ | ⟨-, rfl⟩ | ⟨a, v, -, ha, -, rfl⟩ | ⟨o, -, rfl⟩
  · exact h.popTurn
  · exact h.popTurn.popOp
  · exact h.popTurn.popOp.regWrite hw
  · exact h.withOutside _
  · exact h.popTurn.popOp.storeFromOutside (answers_lt_space ha) v
  · exact h.popTurn.engineTurn
  · exact h.popTurn.resetBlock
  · exact h.popTurn.storeFromOutside (answers_lt_space ha) v
  · exact h.withOutside o

end turns

/-- Settles O43: each case of `step_cases` is one of the updates above. -/
theorem everyStepKeepsTheInvariant : Obligations.EveryStepKeepsTheInvariant :=
  fun _ _ h hs => h.step hs

end Sys2Proof.Machine
end

section
/-! PROOFS. What a step does to the build and to the flags (R25, R27). -/

namespace Sys2Proof.Machine

section steps
variable {s t : State}

theorem engineTurn_build (s : State) : (engineTurn s).build = s.build := by
  rcases engineTurn_cases s with he | ⟨op, -, he⟩ <;> simp [he]

theorem cmdWrite_build {v : Word} (h : cmdWrite v s = .next t) : t.build = s.build := by
  rcases cmdWrite_cases h with ⟨-, rfl⟩ | ⟨-, e, rfl⟩ | ⟨-, i, -, -, rfl⟩ | ⟨-, i, -, -, -, rfl⟩ <;> simp

theorem regWrite_build {off : Nat} {v : Word} (h : regWrite off v s = .next t) : t.build = s.build := by
  rcases regWrite_cases h with ⟨-, h⟩ | rfl | rfl | ⟨-, rfl⟩ | rfl | rfl | rfl
  · exact cmdWrite_build h
  all_goals rfl

/-- No step of any agent changes a build parameter (R25). -/
theorem step_build (h : step s = .next t) : t.build = s.build := by
  rcases step_cases h with ⟨-, rfl | rfl⟩ | ⟨-, off, v, -, hw⟩ | ⟨-, w, rfl⟩ | ⟨-, a, v, rest, -, -, -, rfl⟩ |
    ⟨-, rfl⟩ | ⟨-, rfl⟩ | ⟨a, v, -, -, -, rfl⟩ | ⟨o, -, rfl⟩
  case inr.inl => simpa using regWrite_build hw
  case inr.inr.inr.inr.inl => exact engineTurn_build _
  all_goals rfl

/-- Everything a step can do to the block's registers (R7, R30): only a register write, a pixel and reset touch them. -/
theorem step_blk_cases (h : step s = .next t) :
    t.blk = s.blk ∨ (∃ off v, HostWrites s off v ∧ regWrite off v (popOp (popTurn s)) = .next t) ∨
      (nextTurn s = .engine ∧ s.blk.busy = true ∧ ∃ op, t = writePixel (popTurn s) op) ∨
      (nextTurn s = .reset ∧ t = resetBlock (popTurn s)) := by
  rcases step_cases h with ⟨-, rfl | rfl⟩ | ⟨-, off, v, hv, hw⟩ | ⟨-, w, rfl⟩ | ⟨-, a, v, rest, -, -, -, rfl⟩ |
    ⟨hn, rfl⟩ | ⟨hn, rfl⟩ | ⟨a, v, -, -, -, rfl⟩ | ⟨o, -, rfl⟩
  case inr.inl => exact .inr (.inl ⟨off, v, hv, hw⟩)
  case inr.inr.inr.inr.inl =>
    rcases engineTurn_cases (popTurn s) with he | ⟨op, hb, he⟩
    · exact .inl (by rw [he]; rfl)
    · exact .inr (.inr (.inl ⟨hn, hb, op, he⟩))
  case inr.inr.inr.inr.inr.inl => exact .inr (.inr (.inr ⟨hn, rfl⟩))
  all_goals exact .inl rfl

/-! ### The flags -/

/-- `BUSY`, `DONE` and `ERR` of a block (R20). -/
def flags (k : Block) : Bool × Bool × Bool := (k.busy, k.done, k.err)

/-- Everything a step can do to the flags (R27): the events, and the flags each leaves. -/
inductive FlagEvent (s t : State) : Prop where
  | unchanged (hf : flags t.blk = flags s.blk)
  | busyRefusal (v : Word) (hv : HostWrites s 0x00 v) (hb : s.blk.busy = true)
      (hf : flags t.blk = (true, s.blk.done, true))
  | idleRefusal (v : Word) (hv : HostWrites s 0x00 v) (hb : s.blk.busy = false)
      (hf : flags t.blk = (false, false, true))
  | nullCommand (v : Word) (i : Instr) (hv : HostWrites s 0x00 v) (hd : decode v = .command i)
      (hi : i.nulldst = true) (hb : s.blk.busy = false) (hf : flags t.blk = (false, true, false))
  | accepted (v : Word) (i : Instr) (hv : HostWrites s 0x00 v) (hd : decode v = .command i)
      (hi : i.nulldst = false) (hb : s.blk.busy = false) (hf : flags t.blk = (true, false, false))
  | writeOneToClear (v : Word) (hv : HostWrites s 0x0C v)
      (hf : flags t.blk = (s.blk.busy, s.blk.done && !v.getLsbD 1, s.blk.err && !v.getLsbD 2))
  | lastPixel (hn : nextTurn s = .engine) (hb : s.blk.busy = true) (hp : s.blk.prog + 1 = s.build.pixels)
      (hf : flags t.blk = (false, true, s.blk.err))
  | reset (hn : nextTurn s = .reset) (hf : flags t.blk = (false, false, false))

theorem FlagEvent.of_cmdWrite {v : Word} (hv : HostWrites s 0x00 v)
    (h : cmdWrite v (popOp (popTurn s)) = .next t) : FlagEvent s t := by
  rcases cmdWrite_cases h with ⟨hb, rfl⟩ | ⟨hb, e, rfl⟩ | ⟨hb, i, hd, hi, rfl⟩ | ⟨hb, i, hd, hi, -, rfl⟩ <;>
    simp only [popOp_blk, popTurn_blk] at hb
  · exact .busyRefusal v hv hb (by simp [flags, hb])
  · exact .idleRefusal v hv hb (by simp [flags, hb])
  · exact .nullCommand v i hv hd hi hb (by simp [flags, hb])
  · exact .accepted v i hv hd hi hb (by simp [flags])

theorem FlagEvent.of_regWrite {off : Nat} {v : Word} (hv : HostWrites s off v)
    (hw : regWrite off v (popOp (popTurn s)) = .next t) : FlagEvent s t := by
  rcases regWrite_cases hw with ⟨rfl, hw⟩ | rfl | rfl | ⟨rfl, rfl⟩ | rfl | rfl | rfl
  case inl => exact .of_cmdWrite hv hw
  case inr.inr.inr.inl => exact .writeOneToClear v hv rfl
  all_goals exact .unchanged rfl

theorem FlagEvent.of_writePixel (hn : nextTurn s = .engine) (hb : s.blk.busy = true) (op : Op) :
    FlagEvent s (writePixel (popTurn s) op) := by
  by_cases hp : s.blk.prog + 1 = s.build.pixels
  · exact .lastPixel hn hb hp (by simp [flags, hp, completedBlock])
  · exact .unchanged (by simp [flags, hp])

theorem FlagEvent.of_step (h : step s = .next t) : FlagEvent s t := by
  rcases step_blk_cases h with hk | ⟨off, v, hv, hw⟩ | ⟨hn, hb, op, rfl⟩ | ⟨hn, rfl⟩
  · exact .unchanged (by rw [hk])
  · exact .of_regWrite hv hw
  · exact .of_writePixel hn hb op
  · exact .reset hn rfl

end steps

/-- Settles O44: the build is constant, and `PARAM` reads the build alone. -/
theorem buildIsConstant : Obligations.BuildIsConstant := by
  intro s t h
  have hb := step_build h
  exact ⟨hb, congrArg paramWord hb⟩

/-- Settles O46: by the event of the step, whose flags are known; each clause names the events that make its change. -/
theorem flagsChangeOnlyByTheirEvents : Obligations.FlagsChangeOnlyByTheirEvents := by
  intro s t h
  cases FlagEvent.of_step h with
  | unchanged hf => simp_all [flags]
  | busyRefusal v hv hb hf =>
    have herr : ∃ v, HostWrites s 0x00 v := ⟨v, hv⟩
    simp_all [flags]
  | idleRefusal v hv hb hf =>
    have hcmd : ∃ v, HostWrites s 0x00 v := ⟨v, hv⟩
    simp_all [flags]
  | nullCommand v i hv hd hi hb hf =>
    have hcmd : ∃ v, HostWrites s 0x00 v := ⟨v, hv⟩
    have hnull : ∃ v i, HostWrites s 0x00 v ∧ decode v = .command i ∧ i.nulldst = true := ⟨v, i, hv, hd, hi⟩
    simp_all [flags]
  | accepted v i hv hd hi hb hf =>
    have hcmd : ∃ v, HostWrites s 0x00 v := ⟨v, hv⟩
    have hrun : ∃ v i, HostWrites s 0x00 v ∧ decode v = .command i ∧ i.nulldst = false := ⟨v, i, hv, hd, hi⟩
    simp_all [flags]
  | writeOneToClear v hv hf =>
    have hdone : v.getLsbD 1 = true → ∃ v, HostWrites s 0x0C v ∧ v.getLsbD 1 = true := fun h => ⟨v, hv, h⟩
    have herr : v.getLsbD 2 = true → ∃ v, HostWrites s 0x0C v ∧ v.getLsbD 2 = true := fun h => ⟨v, hv, h⟩
    simp_all [flags]
  | lastPixel hn hb hp hf => simp_all [flags]
  | reset hn hf => simp_all [flags]

end Sys2Proof.Machine
end

section
/-! PROOFS. The register port: the words of the registers as numbers (R20 to R25), and the writes of the codec, `STATUS`, the
base registers and the offsets that ignore them (R18 to R26). -/

namespace Sys2Proof.Machine

/-! ### A word put together from fields -/

/-- A field above the bits of another word is added to it. -/
theorem toNat_or_shiftLeft {x y : Word} {k : Nat} (hx : x.toNat < 2 ^ k) (hy : y.toNat * 2 ^ k < 2 ^ 32) :
    (x ||| y <<< k).toNat = x.toNat + y.toNat * 2 ^ k := by
  rw [BitVec.toNat_or, BitVec.toNat_shiftLeft, Nat.shiftLeft_eq, Nat.mod_eq_of_lt hy, Nat.or_comm,
    ← Nat.shiftLeft_eq, ← Nat.shiftLeft_add_eq_or_of_lt hx, Nat.shiftLeft_eq, Nat.add_comm]

/-- Three bytes in bits 7:0, 15:8 and 23:16, the layout of `CODEC_DEC` and `CODEC_CH` (R22, R23). -/
theorem toNat_threeBytes {r g b : Word} (hr : r.toNat < 256) (hg : g.toNat < 256) (hb : b.toNat < 256) :
    (r ||| g <<< 8 ||| b <<< 16).toNat = r.toNat + g.toNat * 0x100 + b.toNat * 0x10000 := by
  have h : (r ||| g <<< 8).toNat = r.toNat + g.toNat * 0x100 := toNat_or_shiftLeft (k := 8) hr (by omega)
  rw [toNat_or_shiftLeft (k := 16) (by omega) (by omega), h]; rfl

/-- Three bits from bit 0 up and a code in bits 7:4, the layout of `STATUS` (R20). -/
theorem toNat_statusFields {b d e c : Word} (hb : b.toNat < 2) (hd : d.toNat < 2) (he : e.toNat < 2) (hc : c.toNat < 16) :
    (b ||| d <<< 1 ||| e <<< 2 ||| c <<< 4).toNat = b.toNat + 2 * d.toNat + 4 * e.toNat + 16 * c.toNat := by
  have h1 := toNat_or_shiftLeft (k := 1) hb (y := d) (by omega)
  have h2 := toNat_or_shiftLeft (k := 2) (x := b ||| d <<< 1) (y := e) (by omega) (by omega)
  rw [toNat_or_shiftLeft (k := 4) (by omega) (by omega)]
  omega

theorem setWidth_toNat (p : Byte) : (p.setWidth 32).toNat = p.toNat := BitVec.toNat_setWidth_of_le (by decide)

theorem ofNat_chan_toNat (c : Chan) (p : Byte) : (BitVec.ofNat 32 (chan c p)).toNat = chan c p := by
  have hmax : c.max < 2 ^ 32 := by cases c <;> decide
  rw [BitVec.toNat_ofNat, Nat.mod_eq_of_lt ((chan_le c p).trans_lt hmax)]

theorem extractByte_toNat (v : Word) (k : Nat) : (v.extractLsb' k 8).toNat = v.toNat / 2 ^ k % 256 := by
  simp [Nat.shiftRight_eq_div_pow]

/-! ### What each register reads, as a number -/

theorem codecDecWord_toNat (k : Block) : (codecDecWord k).toNat =
    chan .red k.codecPix + chan .green k.codecPix * 0x100 + chan .blue k.codecPix * 0x10000 := by
  have hr := chan_le .red k.codecPix
  have hg := chan_le .green k.codecPix
  have hb := chan_le .blue k.codecPix
  simp only [Chan.max_red, Chan.max_green, Chan.max_blue] at hr hg hb
  rw [codecDecWord, toNat_threeBytes] <;> simp only [ofNat_chan_toNat] <;> omega

theorem codecChWord_toNat (k : Block) : (codecChWord k).toNat =
    k.codecR.toNat + k.codecG.toNat * 0x100 + k.codecB.toNat * 0x10000 := by
  rw [codecChWord, toNat_threeBytes] <;> simp only [setWidth_toNat] <;> omega

theorem codecEncWord_toNat (k : Block) : (codecEncWord k).toNat =
    k.codecR.toNat % 8 * 32 + k.codecG.toNat % 8 * 4 + k.codecB.toNat % 4 := by
  rw [codecEncWord, setWidth_toNat, enc_toNat]

theorem paramWord_toNat {b : Build} (h : b.wf) : (paramWord b).toNat = b.width + b.height * 0x10000 := by
  obtain ⟨⟨-, hw⟩, ⟨-, hh⟩, -⟩ := h
  have h1 : (BitVec.ofNat 32 b.width).toNat = b.width := by simp; omega
  have h2 : (BitVec.ofNat 32 b.height).toNat = b.height := by simp; omega
  rw [paramWord, toNat_or_shiftLeft] <;> simp only [h1, h2] <;> omega

theorem statusWord_toNat (k : Block) : (statusWord k).toNat =
    k.busy.toNat + 2 * k.done.toNat + 4 * k.err.toNat + 16 * k.errcode.toNat := by
  have hflag : ∀ b : Bool, ((BitVec.ofBool b).setWidth 32).toNat = b.toNat := by decide
  have hcode : (k.errcode.setWidth 32).toNat = k.errcode.toNat := BitVec.toNat_setWidth_of_le (by decide)
  have hlt := k.errcode.isLt
  rw [statusWord, toNat_statusFields] <;> simp only [hflag, hcode, Bool.toNat_lt]
  omega

/-- A register's word depends on the block and the build alone. -/
theorem regValue_congr {s t : State} (hk : t.blk = s.blk) (hb : t.build = s.build) (off : Nat) :
    regValue t off = regValue s off := by
  unfold regValue
  rw [hk, hb]

/-! ### The engine does not look at the base registers (R28) -/

theorem engineStep_mapBases (s : State) (f g : Word → Word) :
    engineStep { s with blk := { s.blk with srcBase := f s.blk.srcBase, dstBase := g s.blk.dstBase } } =
      (engineStep s).map fun u =>
        { u with blk := { u.blk with srcBase := f u.blk.srcBase, dstBase := g u.blk.dstBase } } := by
  refine engineStep_congr
    (fun u => { u with blk := { u.blk with srcBase := f u.blk.srcBase, dstBase := g u.blk.dstBase } })
    rfl rfl ⟨rfl, rfl, rfl, rfl, rfl, rfl⟩ ?_
  intro op
  unfold writePixel advance
  simp only
  split <;> rfl

/-! ### The statements -/

/-- Settles O30: the write is `truncAddr`, and the engine's step commutes with any change of the base registers. -/
theorem baseWritesDoNotRedirectTheRun : Obligations.BaseWritesDoNotRedirectTheRun := by
  intro s v _
  have hv := truncAddr_toNat s.build v
  exact ⟨⟨writeSrcBase v s, rfl, rfl, hv, engineStep_mapBases s (fun _ => truncAddr s.build v) id⟩,
    ⟨writeDstBase v s, rfl, rfl, hv, engineStep_mapBases s id (fun _ => truncAddr s.build v)⟩⟩

/-- Settles O33: the stored byte and its channels as quotients and remainders. -/
theorem codecRegistersDecode : Obligations.CodecRegistersDecode := by
  intro s v
  have hpix : (v.extractLsb' 0 8).toNat = v.toNat % 256 := by rw [extractByte_toNat, pow_zero, Nat.div_one]
  refine ⟨writeCodecPix v s, rfl, rfl, (setWidth_toNat _).trans hpix, ?_⟩
  calc (codecDecWord (writeCodecPix v s).blk).toNat
      = v.toNat % 256 / 32 + v.toNat % 256 / 4 % 8 * 0x100 + v.toNat % 256 % 4 * 0x10000 := by
        rw [codecDecWord_toNat, writeCodecPix_blk, chan_red, chan_green, chan_blue, hpix]
    _ = _ := by omega

/-- Settles O34: the three stored bytes, and the packed pixel of what remains of them under the masks. -/
theorem codecRegistersEncode : Obligations.CodecRegistersEncode := by
  intro s v
  refine ⟨writeCodecCh v s, rfl, rfl, ?_, ?_⟩
  · show (codecChWord _).toNat = _
    rw [codecChWord_toNat, writeCodecCh_blk]
    simp only [extractByte_toNat]
    omega
  · show (codecEncWord _).toNat = _
    rw [codecEncWord_toNat, writeCodecCh_blk]
    simp only [extractByte_toNat]
    omega

/-- Settles O36: the word by its fields, the write by its two bits. -/
theorem statusWriteClears : Obligations.StatusWriteClears := by
  intro s v
  refine ⟨statusWord_toNat s.blk, statusWrite v s, rfl, rfl, ?_, ?_, rfl⟩
  · rw [statusWrite_blk]; cases v.getLsbD 1 <;> simp
  · rw [statusWrite_blk]; cases v.getLsbD 2 <;> simp

/-- Settles O37: each listed offset falls under the arm of `regWrite` or `regValue` for all others. -/
theorem readOnlyAndReservedOffsets : Obligations.ReadOnlyAndReservedOffsets := by
  intro s v hwf
  refine ⟨?_, ?_, paramWord_toNat hwf⟩
  · simp only [List.forall_mem_cons]
    exact ⟨rfl, rfl, rfl, rfl, rfl, rfl, rfl, rfl, rfl, rfl, nofun⟩
  · simp only [List.forall_mem_cons]
    exact ⟨rfl, rfl, rfl, rfl, rfl, rfl, rfl, nofun⟩

end Sys2Proof.Machine
end

section
/-! PROOFS. The host's way to the registers: by offset, by platform address, and the step in which it writes `CMD` (R15, R34, R55). -/

namespace Sys2Proof.Machine

/-! ### A register access, aligned or not -/

theorem guardRegister_of_wf {off size : Nat} (r : Host.Outcome State Fault Refusal)
    (h : RegAccess.wf ⟨off, size⟩) : guardRegister off size r = r := if_pos h

theorem guardRegister_of_not_wf {off size : Nat} (r : Host.Outcome State Fault Refusal)
    (h : ¬RegAccess.wf ⟨off, size⟩) : guardRegister off size r = .refused .registerAccess := if_neg h

/-- By offset every access is one word (R15). -/
theorem wordAccess_wf_iff (off : Nat) : RegAccess.wf ⟨off, 4⟩ ↔ off < 64 ∧ off % 4 = 0 := by
  simp [RegAccess.wf]

/-! ### An access by platform address -/

/-- What `busWrite` and `busRead` share: an access of `size` bytes that does what `r` says at the window offset it falls on. -/
def busAccess (addr size : Nat) (r : Nat → Host.Outcome State Fault Refusal) (s : State) :
    Host.Outcome State Fault Refusal :=
  if reachesWindow s.build addr size then
    match windowOffset s.build addr with
    | none => .refused .registerAccess
    | some off => guardRegister off size (r off)
  else .next s

theorem busWrite_eq (addr : Nat) (bytes : List Byte) (s : State) : busWrite addr bytes s =
    busAccess addr bytes.length (fun off => regWrite off (wordOfBytes s.build.regByteOrder bytes) s) s := rfl

theorem busRead_eq (addr size : Nat) (s : State) : busRead addr size s =
    busAccess addr size (fun off => .next (recordWord (regValue s off) s)) s := rfl

theorem reachesWindow_iff (b : Build) (addr size : Nat) :
    reachesWindow b addr size = true ↔ addr < b.engineBase + 64 ∧ b.engineBase < addr + size := by
  simp [reachesWindow]

section bus
variable {s : State} {addr size : Nat} {r : Nat → Host.Outcome State Fault Refusal}

/-- One aligned word of the window is the access at its offset (R15). -/
theorem busAccess_aligned {off : Nat} (ho : off < 64) (ha : off % 4 = 0) :
    busAccess (s.build.engineBase + off) 4 r s = r off := by
  rw [busAccess, if_pos ((reachesWindow_iff _ _ _).2 (by omega)), windowOffset_add]
  exact guardRegister_of_wf _ ⟨ho, ha, rfl⟩

/-- Any other access that reaches the window is refused (R15, log 11). -/
theorem busAccess_undefined (h1 : addr < s.build.engineBase + 64) (h2 : s.build.engineBase < addr + size)
    (h : ¬(s.build.engineBase ≤ addr ∧ (addr - s.build.engineBase) % 4 = 0 ∧ size = 4)) :
    busAccess addr size r s = .refused .registerAccess := by
  rw [busAccess, if_pos ((reachesWindow_iff _ _ _).2 ⟨h1, h2⟩)]
  cases ho : windowOffset s.build addr with
  | none => rfl
  | some off =>
    have hoff := windowOffset_eq_some ho
    refine guardRegister_of_not_wf _ fun ⟨_, ha, hs⟩ => h ⟨?_, ?_, hs⟩
    · omega
    · rwa [← hoff, Nat.add_sub_cancel_left]

/-- One that does not reach the window is none of the block's (log 11). -/
theorem busAccess_outside (h : addr + size ≤ s.build.engineBase ∨ s.build.engineBase + 64 ≤ addr) :
    busAccess addr size r s = .next s := by
  rw [busAccess, if_neg]
  rw [reachesWindow_iff]
  omega

end bus

/-- A byte put below a word. -/
theorem toNat_append_byte {n : Nat} (x : BitVec n) (p : Byte) : (x ++ p).toNat = x.toNat * 256 + p.toNat := by
  rw [BitVec.toNat_append, ← Nat.shiftLeft_add_eq_or_of_lt p.isLt, Nat.shiftLeft_eq]

/-- Four bytes, the most significant first, as one word. -/
theorem ofNat_fourBytes (a b c d : Byte) :
    BitVec.ofNat 32 (((a.toNat * 256 + b.toNat) * 256 + c.toNat) * 256 + d.toNat) = a ++ b ++ c ++ d := by
  apply BitVec.eq_of_toNat_eq
  rw [BitVec.toNat_ofNat, toNat_append_byte, toNat_append_byte, toNat_append_byte]
  omega

/-- The word of four bytes on the host's bus, in either byte order (R34, log 20). -/
theorem wordOfBytes_little (b0 b1 b2 b3 : Byte) : wordOfBytes .little [b0, b1, b2, b3] = b3 ++ b2 ++ b1 ++ b0 := by
  simpa [wordOfBytes] using ofNat_fourBytes b3 b2 b1 b0

theorem wordOfBytes_big (b0 b1 b2 b3 : Byte) : wordOfBytes .big [b0, b1, b2, b3] = b0 ++ b1 ++ b2 ++ b3 := by
  simpa [wordOfBytes] using ofNat_fourBytes b0 b1 b2 b3

/-! ### The host's step -/

/-- The host's next operation is over and its listed turn is used up. -/
theorem popOp_popTurn (s : State) : popOp (popTurn s) = { s with outside :=
    { s.outside with program := s.outside.program.tail, sched := s.outside.sched.tail } } := rfl

theorem step_hostOp {s : State} {op : HostOp} {rest : List HostOp} (hn : nextTurn s = .host)
    (hp : s.outside.program = op :: rest) : step s = hostOp op (popTurn s) := by
  have hp' : (popTurn s).outside.program = op :: rest := hp
  rw [step, hn, takeTurn, hostTurn, hp']

/-- The step in which the host writes a word to an aligned offset is that register write (R15), however it reaches the window. -/
theorem HostWrites.step_eq {s : State} {off : Nat} {v : Word} (h : HostWrites s off v) (ho : off < 64)
    (ha : off % 4 = 0) : step s = regWrite off v (popOp (popTurn s)) := by
  obtain ⟨hn, rest, hp | ⟨bytes, hp, hlen, hv⟩⟩ := h
  · rw [step_hostOp hn hp]
    exact guardRegister_of_wf _ ⟨ho, ha, rfl⟩
  · rw [step_hostOp hn hp, hostOp, busWrite_eq, hlen]
    exact (busAccess_aligned (s := popOp (popTurn s)) ho ha).trans (by rw [← hv]; rfl)

theorem cmdWrite_command {v : Word} {i : Instr} (h : decode v = .command i) (s : State) : cmdWrite v s = exec i s := by
  simp [cmdWrite, h]

theorem cmdWrite_refused {v : Word} {e : ErrCode} (h : decode v = .refused e) (s : State) :
    cmdWrite v s = .next (refuseWord e s) := by
  simp [cmdWrite, h]

/-- The decoder's reading of a table word is that of the word the host writes (R53). -/
theorem decode_tableWord {nbits w : Nat} {i : Instr} (h : decodeTableWord nbits w = some i) :
    decode (tableWord nbits w) = .command i := by
  unfold decodeTableWord at h
  unfold tableWord
  cases hd : decode (BitVec.ofNat 32 (w % 2 ^ nbits)) with
  | command j => simpa [hd] using h
  | refused e => simp [hd] at h

theorem withFetchWord_hostWrites (s : State) (nbits w : Nat) :
    HostWrites (s.withFetchWord nbits w) 0 (tableWord nbits w) := ⟨rfl, _, .inl rfl⟩

/-! ### The statements -/

/-- Settles O5: the host's step is the register write, and the `CMD` write is `exec` of the decoded word or its refusal. -/
theorem stepRunsTheDecodedCommand : Obligations.StepRunsTheDecodedCommand := by
  refine ⟨?_, ?_, ?_⟩
  · intro s nbits w i hi
    rw [(withFetchWord_hostWrites s nbits w).step_eq (by decide) (by decide)]
    exact cmdWrite_command (decode_tableWord hi) s
  · intro s v i hv hd
    rw [hv.step_eq (by decide) (by decide)]
    exact cmdWrite_command hd _
  · intro s v e hv hd
    rw [hv.step_eq (by decide) (by decide)]
    exact cmdWrite_refused hd _

/-- Settles O38: the aligned read passes the guard, and the host's place in its program is no part of a register. -/
theorem registerReadsChangeNothing : Obligations.RegisterReadsChangeNothing := by
  intro s off rest ho ha hn hp
  rw [step_hostOp hn hp, hostOp, guardRegister_of_wf _ ⟨ho, ha, rfl⟩,
    regValue_congr (popTurn_blk s) (popTurn_build s)]
  simp [recordWord, popOp, popTurn, hp]

/-- Settles O39: by offset through the guard alone, by platform address through `busAccess`. -/
theorem onlyAlignedWordsReachTheRegisters : Obligations.OnlyAlignedWordsReachTheRegisters := by
  intro s
  refine ⟨?_, ?_, ?_, ?_, ?_, ?_, ?_, ?_, ?_⟩
  · intro off v h
    exact guardRegister_of_not_wf _ (mt (wordAccess_wf_iff off).1 h)
  · intro off h
    exact guardRegister_of_not_wf _ (mt (wordAccess_wf_iff off).1 h)
  · intro off lo width v h
    exact guardRegister_of_not_wf _ (mt (wordAccess_wf_iff off).1 h)
  · intro off lo width v ho ha
    rw [hostOp, guardRegister_of_wf _ ⟨ho, ha, rfl⟩, fieldValue, Nat.shiftRight_eq_div_pow]
    rfl
  · intro addr bytes h1 h2 h
    exact busAccess_undefined (s := popOp s) h1 h2 h
  · intro addr size h1 h2 h
    exact busAccess_undefined (s := popOp s) h1 h2 h
  · intro off ho ha b0 b1 b2 b3
    constructor
    · refine (busAccess_aligned (s := popOp s) ho ha).trans (Eq.trans ?_ (guardRegister_of_wf _ ⟨ho, ha, rfl⟩).symm)
      refine congrArg (regWrite off · (popOp s)) ?_
      rw [popOp_build]
      cases s.build.regByteOrder
      · exact wordOfBytes_little b0 b1 b2 b3
      · exact wordOfBytes_big b0 b1 b2 b3
    · exact (busAccess_aligned (s := popOp s) ho ha).trans (guardRegister_of_wf _ ⟨ho, ha, rfl⟩).symm
  · intro addr bytes h
    exact busAccess_outside (s := popOp s) h
  · intro addr size h
    exact busAccess_outside (s := popOp s) h

end Sys2Proof.Machine
end

section
/-! PROOFS. Who reaches image memory and where: the other agents' accesses, the writers of a byte, the engine's addresses, and the
engine that memory does not answer (R31, R33, R36, R47). -/

namespace Sys2Proof.Machine

/-! ### An access of another agent that does not go through (log 9, log 10) -/

theorem guardAccess_outsideSpace {a : Nat} {s : State} (h : s.build.space ≤ a) (t : State) :
    guardAccess a s t = .fault .addressOutsideSpace := by
  simp [guardAccess, inSpace, h]

theorem guardAccess_noAnswer {a : Nat} {s : State} (ha : a < s.build.space) (h : answers s.build a = false) (t : State) :
    guardAccess a s t = .fault .noAnswer := by
  simp [guardAccess, inSpace, ha, h]

theorem guardAccess_device {a : Nat} {s : State} (h : answers s.build a = true) (hd : isDevice s.build a = true) (t : State) :
    guardAccess a s t = .refused .deviceAccess := by
  simp [guardAccess, inSpace, answers_lt_space h, h, hd]

theorem guardAccess_plain {a : Nat} {s : State} (h : answers s.build a = true) (hd : isDevice s.build a = false) (t : State) :
    guardAccess a s t = .next t := guardAccess_eq_next_iff.2 ⟨h, hd, rfl⟩

/-- Settles O48: the three accesses pass one guard, which has these four outcomes. -/
theorem outsideMemoryAccesses : Obligations.OutsideMemoryAccesses := by
  intro s a v
  refine ⟨?_, ?_, ?_, ?_⟩
  · intro h hd
    exact ⟨guardAccess_plain h hd _, guardAccess_plain h hd _, _, guardAccess_plain h hd _, rfl⟩
  · intro h
    exact ⟨guardAccess_outsideSpace h _, guardAccess_outsideSpace h _, guardAccess_outsideSpace h _⟩
  · intro ha h
    exact ⟨guardAccess_noAnswer ha h _, guardAccess_noAnswer ha h _, guardAccess_noAnswer ha h _⟩
  · intro h hd
    exact ⟨guardAccess_device h hd _, guardAccess_device h hd _, guardAccess_device h hd _⟩

/-! ### The writers of memory (R31, R58, R87, R96) -/

/-- A byte that a write changes is the written one, and holds the value written. -/
theorem Memory.eq_of_read_write_ne {m : Memory} (h : m.wf) {a c : Nat} {v : Byte} (hc : (m.write a v).read c ≠ m.read c) :
    c = a ∧ (m.write a v).read c = v := by
  have heq : c = a := by
    by_contra hne
    exact hc (Memory.read_write_other h hne v)
  exact ⟨heq, heq ▸ Memory.read_write_same h c v⟩

theorem cmdWrite_mem {v : Word} {s t : State} (h : cmdWrite v s = .next t) : t.mem = s.mem := by
  rcases cmdWrite_cases h with ⟨-, rfl⟩ | ⟨-, e, rfl⟩ | ⟨-, i, -, -, rfl⟩ | ⟨-, i, -, -, -, rfl⟩ <;> simp

/-- No register write writes memory (R31). -/
theorem regWrite_mem {off : Nat} {v : Word} {s t : State} (h : regWrite off v s = .next t) : t.mem = s.mem := by
  rcases regWrite_cases h with ⟨-, h⟩ | rfl | rfl | ⟨-, rfl⟩ | rfl | rfl | rfl
  · exact cmdWrite_mem h
  all_goals rfl

/-- Settles O45: of the cases of `step_cases` three write memory, each one byte at its own address. -/
theorem memoryChangesOnlyByItsWriters : Obligations.MemoryChangesOnlyByItsWriters := by
  intro s t a hwf h hne
  rcases step_cases h with ⟨-, rfl | rfl⟩ | ⟨-, off, v, -, hw⟩ | ⟨-, w, rfl⟩ | ⟨hn, c, v, rest, hp, -, -, rfl⟩ |
    ⟨hn, rfl⟩ | ⟨-, rfl⟩ | ⟨c, v, hn, -, -, rfl⟩ | ⟨o, -, rfl⟩
  case inr.inl => exact absurd (congrArg (Memory.read · a) (regWrite_mem hw)) hne
  case inr.inr.inr.inl =>
    obtain ⟨rfl, hv⟩ := Memory.eq_of_read_write_ne hwf hne
    exact .inr (.inl ⟨hn, v, rest, hp, hv⟩)
  case inr.inr.inr.inr.inl =>
    rcases engineTurn_cases (popTurn s) with he | ⟨op, hb, he⟩
    · exact absurd (by rw [he]; rfl) hne
    · rw [he, writePixel_mem] at hne
      exact .inl ⟨hn, hb, (Memory.eq_of_read_write_ne hwf hne).1⟩
  case inr.inr.inr.inr.inr.inr.inl =>
    obtain ⟨rfl, hv⟩ := Memory.eq_of_read_write_ne hwf hne
    exact .inr (.inr ⟨v, hn, hv⟩)
  all_goals exact absurd rfl hne

/-! ### The engine's addresses (R33, R89) -/

/-- The regions of a running command passed the checks under its own mnemonic (R56, R89). -/
theorem RunningInv.regionsOk {s : State} (h : RunningInv s) {op : Op} (ho : Op.ofCode s.blk.latOp = some op) :
    RegionsOk s.build op s.blk.src.toNat s.blk.dst.toNat := by
  obtain ⟨op', ho', hr⟩ := h.regions
  obtain rfl : op' = op := Option.some.inj (ho'.symm.trans ho)
  exact hr

/-- Settles O24: `prog < N`, the regions end in the address space, and the pixels read lie in the image. -/
theorem engineStaysInItsRegions : Obligations.EngineStaysInItsRegions := by
  intro s op h hb ho
  have hr := h.running hb
  have hregions := hr.regionsOk ho
  obtain ⟨hx, hy⟩ := next_inside h.build.1.1 hr.prog
  refine ⟨hr.prog, nextAddr_eq s, Nat.add_lt_add_left hr.prog _, hregions.dstFits, hregions.srcFits, ?_⟩
  intro q hq
  obtain ⟨qx, qy⟩ := mayDependOn_inside op hx hy q hq
  exact pixaddr_inside _ qx qy

/-- Settles O29: the one byte written, `dst + prog`, lies in the destination region, which is disjoint from the source. -/
theorem engineNeverWritesItsSource : Obligations.EngineNeverWritesItsSource := by
  intro s t h hb hne he k hk
  obtain ⟨-, op, ho, -, rfl⟩ := engineStep_eq_some_iff.1 he
  have hr := h.running hb
  have hprog := hr.prog
  have hbases : s.blk.src.toNat ≠ s.blk.dst.toNat := mt BitVec.eq_of_toNat_eq hne
  have hapart := (hr.regionsOk ho).apart
  rw [writePixel_mem]
  refine Memory.read_write_other h.memWf ?_ _
  unfold nextAddr
  omega

/-! ### The engine that memory does not answer (R36, R37) -/

section stuck
variable {s t : State}

/-- The turn of an engine without a step uses up its turn and does nothing else (log 8). -/
theorem step_engine_stuck (hn : nextTurn s = .engine) (he : engineStep s = none) : step s = .next (popTurn s) := by
  simp [step, hn, takeTurn, engineTurn, engineStep_popTurn, he]

/-- Where the engine is stuck, every step but reset leaves the command where it is. -/
theorem step_sameRun (hb : s.blk.busy = true) (he : engineStep s = none) (hn : nextTurn s ≠ .reset)
    (h : step s = .next t) : SameRun s t := by
  by_cases hturn : nextTurn s = .engine
  · rw [step_engine_stuck hturn he] at h
    cases h
    exact .of_blk rfl rfl
  · rcases step_blk_cases h with hk | ⟨off, v, -, hw⟩ | ⟨hengine, -⟩ | ⟨hreset, -⟩
    · exact .of_blk (step_build h) hk
    · exact SameRun.trans (t := popOp (popTurn s)) (.of_blk rfl rfl) (regWrite_sameRun hb hw)
    · exact absurd hengine hturn
    · exact absurd hreset hn

/-- Reset comes next only where it is listed (log 3). -/
theorem nextTurn_ne_reset (h : .reset ∉ s.outside.sched) : nextTurn s ≠ .reset := by
  cases hs : s.outside.sched with
  | nil => cases he : (engineStep s).isSome <;> simp [nextTurn, hs, he]
  | cons t l =>
    intro hn
    have ht : t = .reset := by simpa [nextTurn, hs] using hn
    exact h (by simp [hs, ht])

variable {op : Op}

/-- An engine without an answer has no step (R36, R37). -/
theorem engineStep_unanswered (ho : Op.ofCode s.blk.latOp = some op) (hu : Unanswered s op) : engineStep s = none :=
  engineStep_stalled ho (stalled_of_unanswered hu)

/-- The engine stays stuck along every run without a reset (R36, R62). -/
theorem run_unanswered {n : Nat} (hb : s.blk.busy = true) (ho : Op.ofCode s.blk.latOp = some op) (hu : Unanswered s op)
    (hs : .reset ∉ s.outside.sched) (h : run n s = .next t) : SameRun s t := by
  induction n generalizing s with
  | zero =>
    cases h
    exact .of_blk rfl rfl
  | succ n ih =>
    cases hstep : step s with
    | next u =>
      rw [run_succ_of_next hstep] at h
      have hsame := step_sameRun hb (engineStep_unanswered ho hu) (nextTurn_ne_reset hs) hstep
      refine hsame.trans (ih (hsame.busy.trans hb) (hsame.latOp ▸ ho) (hu.of_sameRun hsame) ?_ h)
      rw [step_sched hstep]
      exact mt List.mem_of_mem_tail hs
    | fault r => simp [run, hstep] at h
    | refused r => simp [run, hstep] at h

/-- With no turn listed, a host with nothing to do and an engine without a step, nothing moves (log 3, log 8). -/
theorem step_of_nothing_to_do (he : engineStep s = none) (hp : s.outside.program = []) (hs : s.outside.sched = []) :
    step s = .next s := by
  have hn : nextTurn s = .host := by simp [nextTurn, hs, he]
  rw [step, hn, popTurn_of_empty s hs, takeTurn, hostTurn, hp]

end stuck

/-- Settles O23: what cannot be answered depends on the run alone, which no step but reset and the engine's own changes. -/
theorem unansweredEngineIsStuckForGood : Obligations.UnansweredEngineIsStuckForGood := by
  intro s op hb ho hu
  have he := engineStep_unanswered ho hu
  have hstuck : ∀ t, SameRun s t → SameRun s t ∧ engineStep t = none := fun t e =>
    ⟨e, engineStep_unanswered (e.latOp ▸ ho) (hu.of_sameRun e)⟩
  refine ⟨he, by simp [engineTurn, he], ?_, ?_, ?_⟩
  · intro t hn h
    exact hstuck t (step_sameRun hb he hn h)
  · intro n t hs h
    exact hstuck t (run_unanswered hb ho hu hs h)
  · intro hp hs
    exact run_of_fixed (step_of_nothing_to_do he hp hs)

end Sys2Proof.Machine
end

section
/-! PROOFS. The run of a command that no other agent disturbs: what its first `k` engine steps write, the whole of it as one
transition of memory, and the host's `FILTER` sequence (R46, R47, R54, R58, R62). -/

namespace Sys2Proof.Machine

/-! ### The engine's first `k` steps -/

/-- A command runs with its regions checked, and no other agent has written a source byte (R46). -/
structure UndisturbedRun (op : Op) (s : State) : Prop where
  build   : s.build.wf
  memWf   : s.mem.wf
  busy    : s.blk.busy = true
  latOp   : Op.ofCode s.blk.latOp = some op
  prog    : s.blk.prog < s.build.pixels
  regions : RegionsOk s.build op s.blk.src.toNat s.blk.dst.toNat
  clean   : s.dirty = []

/-- The command's result for the output pixel of row-major index `j`, of the source as memory holds it now (R29, R59). -/
def resultAt (op : Op) (s : State) (j : Nat) : Byte :=
  pixel s.build op s.blk.latThresh (imageAt s.build s.mem s.blk.src.toNat) (j % s.build.width) (j / s.build.width)

/-- The block when `m` pixels are written (R58). -/
def blockAt (s : State) (m : Nat) : Block :=
  if m = s.build.pixels then completedBlock m s.blk else { s.blk with prog := m }

theorem blockAt_of_lt {s : State} {m : Nat} (h : m < s.build.pixels) : blockAt s m = { s.blk with prog := m } := if_neg h.ne

theorem blockAt_pixels (s : State) : blockAt s s.build.pixels = completedBlock s.build.pixels s.blk := if_pos rfl

theorem blockAt_prog (s : State) (m : Nat) : (blockAt s m).prog = m := by
  unfold blockAt
  split <;> rfl

/-- `u` is `s` after `k` more pixels: those bytes hold the results of the source as it stood in `s`, every other byte and every
register but `prog`, `BUSY` and `DONE` what they held (R41, R58). -/
structure WrittenPixels (op : Op) (s : State) (k : Nat) (u : State) : Prop where
  build   : u.build = s.build
  outside : u.outside = s.outside
  dirty   : u.dirty = s.dirty
  memWf   : u.mem.wf
  blk     : u.blk = blockAt s (s.blk.prog + k)
  written : ∀ j, s.blk.prog ≤ j → j < s.blk.prog + k → u.mem.read (s.blk.dst.toNat + j) = resultAt op s j
  kept    : ∀ a, (a < s.blk.dst.toNat + s.blk.prog ∨ s.blk.dst.toNat + (s.blk.prog + k) ≤ a) → u.mem.read a = s.mem.read a

section run
variable {op : Op} {s u v : State} {k : Nat}

theorem WrittenPixels.zero (h : UndisturbedRun op s) : WrittenPixels op s 0 s where
  build := rfl
  outside := rfl
  dirty := rfl
  memWf := h.memWf
  blk := by simp [blockAt, h.prog.ne]
  written := by omega
  kept := fun _ _ => rfl

/-- Before the last pixel only `prog` has moved. -/
theorem WrittenPixels.blk_running (h : WrittenPixels op s k u) (hk : s.blk.prog + k < s.build.pixels) :
    u.blk = { s.blk with prog := s.blk.prog + k } := by
  rw [h.blk, blockAt_of_lt hk]

/-- What is written so far does not change the next result: the source is another region, or the command is a point filter in
place, which reads one byte that is not yet written (R46, R56). -/
theorem WrittenPixels.next_result (h : WrittenPixels op s k u) (hs : UndisturbedRun op s) (hk : s.blk.prog + k < s.build.pixels) :
    outputByte u op = resultAt op s (s.blk.prog + k) := by
  have hblk := h.blk_running hk
  have hx : nextX u = (s.blk.prog + k) % s.build.width := by simp [nextX, hblk, h.build]
  have hy : nextY u = (s.blk.prog + k) / s.build.width := by simp [nextY, hblk, h.build]
  rw [outputByte_clean op (h.dirty.trans hs.clean), hx, hy, hblk, h.build, resultAt]
  dsimp only
  rcases hs.regions.apart with hd | hd | ⟨hpoint, hd⟩
  case inr.inr =>
    refine pixel_point_congr hpoint _ (h.kept _ ?_)
    rw [pixaddr_divMod]
    omega
  all_goals
    have hin : (s.blk.prog + k) / s.build.width < s.build.height := Nat.div_lt_of_lt_mul hk
    refine pixel_congr op _ (Nat.mod_lt _ hs.build.1.1) hin fun x hx y hy => h.kept _ ?_
    have := pixaddr_inside s.blk.src.toNat hx hy
    omega

/-- One pixel more (R58). -/
theorem WrittenPixels.succ (h : WrittenPixels op s k u) (hs : UndisturbedRun op s) (hk : s.blk.prog + k < s.build.pixels) :
    WrittenPixels op s (k + 1) (writePixel u op) := by
  have hblk := h.blk_running hk
  have hread : ∀ a, (writePixel u op).mem.read a =
      if a = s.blk.dst.toNat + (s.blk.prog + k) then resultAt op s (s.blk.prog + k) else u.mem.read a := by
    intro a
    rw [writePixel_mem, Memory.read_write h.memWf, h.next_result hs hk, nextAddr, hblk]
  refine ⟨?_, ?_, ?_, ?_, ?_, ?_, ?_⟩
  · rw [writePixel_build, h.build]
  · rw [writePixel_outside, h.outside]
  · rw [writePixel_dirty, h.dirty]
  · rw [writePixel_mem]
    exact Memory.write_wf h.memWf _ _
  · rw [writePixel_blk, hblk, h.build]
    rfl
  · intro j h1 h2
    rw [hread]
    split_ifs with hj
    · rw [Nat.add_left_cancel hj]
    · exact h.written j h1 (by omega)
  · intro a ha
    rw [hread, if_neg (by omega)]
    exact h.kept a (by omega)

/-- The engine's last step comes after the others. -/
theorem engineRun_succ (k : Nat) (s : State) : engineRun (k + 1) s = (engineRun k s).bind engineStep := by
  rw [engineRun_add]
  congr 1
  funext u
  simp [engineRun]

/-- Every run of the engine that is not longer than its command writes the pixels one by one. -/
theorem engineRun_writes (hs : UndisturbedRun op s) (hk : s.blk.prog + k ≤ s.build.pixels) (h : engineRun k s = some u) :
    WrittenPixels op s k u := by
  induction k generalizing u with
  | zero =>
    cases h
    exact .zero hs
  | succ k ih =>
    rw [engineRun_succ] at h
    obtain ⟨v, hv, hstep⟩ := Option.bind_eq_some_iff.1 h
    have hw := ih (by omega) hv
    obtain ⟨-, op', ho, -, rfl⟩ := engineStep_eq_some_iff.1 hstep
    rw [hw.blk_running hk] at ho
    obtain rfl : op = op' := Option.some.inj (hs.latOp.symm.trans ho)
    exact hw.succ hs hk

/-- Where both regions answer, every step of the run is enabled (R62). -/
theorem engineRun_enabled (hs : UndisturbedRun op s) (ha : RunAnswers s) (hk : s.blk.prog + k ≤ s.build.pixels) :
    ∃ u, engineRun k s = some u := by
  induction k with
  | zero => exact ⟨s, rfl⟩
  | succ k ih =>
    obtain ⟨v, hv⟩ := ih (by omega)
    have hw := engineRun_writes hs (by omega) hv
    have hblk := hw.blk_running hk
    have hstall : engineStalled v op = false := by
      refine not_stalled op ?_ ?_ ⟨?_, ?_⟩ <;> rw [hw.build]
      · exact hs.build.1.1
      · rw [hblk]; exact hk
      · rw [hblk]; exact ha.src
      · rw [hblk]; exact ha.dst
    refine ⟨writePixel v op, ?_⟩
    rw [engineRun_succ, hv]
    exact engineStep_enabled (by rw [hblk]; exact hs.busy) (by rw [hblk]; exact hs.latOp) hstall

/-- The whole run, from the first pixel on, leaves the image of the command (R46). -/
theorem WrittenPixels.holdsImage (h : WrittenPixels op s s.build.pixels u) (h0 : s.blk.prog = 0) :
    HoldsImage s.build s.mem u.mem s.blk.src.toNat s.blk.dst.toNat (pixel s.build op s.blk.latThresh) where
  inside := by
    intro x hx y hy
    have hj : y * s.build.width + x < s.build.pixels := by
      have := pixaddr_inside 0 hx hy
      simpa [pixaddr] using this
    have hmod : (y * s.build.width + x) % s.build.width = x := by
      rw [Nat.mul_comm, Nat.mul_add_mod, Nat.mod_eq_of_lt hx]
    have hdiv : (y * s.build.width + x) / s.build.width = y := by
      rw [Nat.mul_comm, Nat.mul_add_div (by omega), Nat.div_eq_of_lt hx, Nat.add_zero]
    have hw := h.written (y * s.build.width + x) (by omega) (by omega)
    rwa [resultAt, hmod, hdiv, ← Nat.add_assoc] at hw
  outside := fun a ha => h.kept a (by omega)

end run

/-! ### The accepted command -/

section accepted
variable {i : Instr} {s : State}

/-- A command that passes the checks is accepted (R55, R56, R57). -/
theorem exec_acceptable (hn : i.nulldst = false) (h : Acceptable i.op s) : exec i s = .next (afterAccept i s) := by
  rw [exec_eq_issue, hn, issue_accepted h.idle (checkRegions_eq_none_iff.2 h.regions)
    ((regionsCoverDevice_eq_false_iff s).2 ⟨h.srcPlain, h.dstPlain⟩), startEngine_latch hn]

theorem undisturbedRun_afterAccept (hb : s.build.wf) (hm : s.mem.wf) (h : Acceptable i.op s) :
    UndisturbedRun i.op (afterAccept i s) where
  build := hb
  memWf := hm
  busy := rfl
  latOp := Op.ofCode_code i.op
  prog := one_le_pixels hb
  regions := h.regions
  clean := rfl

/-- The first `k` engine steps of an accepted command are enabled, and write its first `k` pixels (R58, R62). -/
theorem engineRun_afterAccept (hb : s.build.wf) (hm : s.mem.wf) (h : Acceptable i.op s) (ha : BasesAnswer s) {k : Nat}
    (hk : k ≤ s.build.pixels) :
    ∃ u, engineRun k (afterAccept i s) = some u ∧ WrittenPixels i.op (afterAccept i s) k u := by
  have hs := undisturbedRun_afterAccept hb hm h
  have hk' : (afterAccept i s).blk.prog + k ≤ (afterAccept i s).build.pixels := by
    rw [show (afterAccept i s).blk.prog = 0 from rfl, Nat.zero_add]
    exact hk
  obtain ⟨u, hu⟩ := engineRun_enabled hs ⟨ha.src, ha.dst⟩ hk'
  exact ⟨u, hu, engineRun_writes hs hk' hu⟩

end accepted

/-- Settles O25: `engineRun_afterAccept` read byte by byte, and reset by its own laws. -/
theorem interruptedRunLeavesARowMajorPrefix : Obligations.InterruptedRunLeavesARowMajorPrefix := by
  intro i s k hb hm h ha hk
  obtain ⟨u, hu, hw⟩ := engineRun_afterAccept hb hm h ha hk
  have hblk : u.blk = blockAt (afterAccept i s) k := by simpa [afterAccept] using hw.blk
  refine ⟨u, hu, ?_, ?_, ?_, ?_, rfl, rfl, rfl⟩
  · rw [hblk, blockAt_prog]
  · intro hlt
    rw [hblk, blockAt_of_lt (s := afterAccept i s) hlt]
    rfl
  · intro j hj
    split_ifs with hjk
    · exact hw.written j (Nat.zero_le j) (by simpa [afterAccept] using hjk)
    · exact hw.kept _ (.inr (by simpa [afterAccept] using hjk))
  · intro a haway
    exact hw.kept a (by simp only [afterAccept]; omega)

/-! ### The machine's steps with no turn listed (log 3) -/

section defaultTurns
variable {s u : State}

theorem nextTurn_idle (hb : s.blk.busy = false) (hs : s.outside.sched = []) : nextTurn s = .host := by
  simp [nextTurn, hs, engineStep_idle hb]

/-- With no turn listed an enabled engine moves. -/
theorem step_of_engineStep (hs : s.outside.sched = []) (h : engineStep s = some u) : step s = .next u := by
  have hn : nextTurn s = .engine := by simp [nextTurn, hs, h]
  rw [step, hn, popTurn_of_empty s hs, takeTurn, engineTurn, h, Option.getD_some]

/-- With no turn listed a run of the engine is a run of the machine. -/
theorem run_of_engineRun {k : Nat} (hs : s.outside.sched = []) (h : engineRun k s = some u) : run k s = .next u := by
  induction k generalizing s with
  | zero =>
    cases h
    rfl
  | succ k ih =>
    obtain ⟨v, hv, h⟩ := Option.bind_eq_some_iff.1 h
    obtain ⟨-, op, -, -, rfl⟩ := engineStep_eq_some_iff.1 hv
    rw [run_succ_of_next (step_of_engineStep hs hv)]
    exact ih (by rw [writePixel_outside, hs]) h

/-- The step in which the host of an idle block writes a word at an aligned offset (R15). -/
theorem step_wr {off : Nat} {v : Word} {rest : List HostOp} (hb : s.blk.busy = false) (hs : s.outside.sched = [])
    (hp : s.outside.program = .wr off v :: rest) (ho : off < 64) (ha : off % 4 = 0) :
    step s = regWrite off v (popOp s) := by
  have hw : HostWrites s off v := ⟨nextTurn_idle hb hs, rest, .inl hp⟩
  rw [hw.step_eq ho ha, popTurn_of_empty s hs]

/-- `POLL STATUS.BUSY == 0` is over at once in an idle block (R54). -/
theorem step_pollBusy {rest : List HostOp} (hb : s.blk.busy = false) (hs : s.outside.sched = [])
    (hp : s.outside.program = opPollBusy 0 :: rest) : step s = .next (popOp s) := by
  have hfield : fieldValue (regValue s Reg.status.offset) 0 1 = 0 := by
    show (statusWord s.blk).toNat >>> 0 % 2 ^ 1 = 0
    rw [statusWord_toNat, hb, Nat.shiftRight_zero, Bool.toNat_false]
    omega
  rw [step_hostOp (nextTurn_idle hb hs) hp, popTurn_of_empty s hs, opPollBusy, hostOp,
    guardRegister_of_wf _ (by decide), if_pos hfield]

end defaultTurns

/-- The command of `i` has run from `s`, with `rest` left for the host to do: the registers and memory as R46, R57 and R58
leave them. -/
structure CommandDone (i : Instr) (s : State) (rest : List HostOp) (u : State) : Prop where
  blk     : u.blk = completedBlock s.build.pixels (afterAccept i s).blk
  build   : u.build = s.build
  outside : u.outside = { s.outside with program := rest }
  memWf   : u.mem.wf
  image   : HoldsImage s.build s.mem u.mem s.blk.srcBase.toNat s.blk.dstBase.toNat (pixel s.build i.op i.thresh)

/-- The host's `CMD` write and the `N` engine steps after it (R46, R55, R58). -/
theorem run_command {i : Instr} {s : State} {rest : List HostOp} (hb : s.build.wf) (hm : s.mem.wf) (hn : i.nulldst = false)
    (h : Acceptable i.op s) (ha : BasesAnswer s) (hp : s.outside.program = opWR .cmd (encode i) :: rest)
    (hs : s.outside.sched = []) : ∃ u, run (s.build.pixels + 1) s = .next u ∧ CommandDone i s rest u := by
  have hpop : Acceptable i.op (popOp s) := ⟨h.idle, h.regions, h.srcPlain, h.dstPlain⟩
  have hdec : decode (encode i) = .command i := by rw [encode, decode_cmdWord, Instr.op_instr]
  have hstep : step s = .next (afterAccept i (popOp s)) := by
    rw [step_wr h.idle hs hp (by decide) (by decide)]
    exact (cmdWrite_command hdec _).trans (exec_acceptable hn hpop)
  obtain ⟨u, hu, hw⟩ := engineRun_afterAccept (s := popOp s) hb hm hpop ⟨ha.src, ha.dst⟩ le_rfl
  have hblk : u.blk = blockAt (afterAccept i (popOp s)) s.build.pixels :=
    hw.blk.trans (congrArg (blockAt _) (Nat.zero_add _))
  refine ⟨u, (run_succ_of_next hstep _).trans (run_of_engineRun hs hu), hblk.trans (blockAt_pixels _), hw.build, ?_,
    hw.memWf, hw.holdsImage rfl⟩
  rw [hw.outside, afterAccept, popOp_outside, hp, List.tail_cons]

/-- Settles O26: `run_command`. -/
theorem commandIsOneAtomicTransition : Obligations.CommandIsOneAtomicTransition := by
  intro i s rest hb hm hn h ha hp hs
  obtain ⟨u, hu, hd⟩ := run_command hb hm hn h ha hp hs
  exact ⟨u, hu, hd.blk, hd.build, hd.outside, hd.image⟩

/-! ### The `FILTER` sequence (R54) -/

/-- The base registers hold these addresses. -/
def withBases (src dst : Word) (s : State) : State :=
  { s with blk := { s.blk with srcBase := src, dstBase := dst } }

/-- An address whose region ends in the address space is stored as it is (R18). -/
theorem truncAddr_of_fits {b : Build} {v : Word} (hb : b.wf) (h : v.toNat + b.pixels ≤ b.space) : truncAddr b v = v := by
  have := one_le_pixels hb
  apply BitVec.eq_of_toNat_eq
  rw [truncAddr_toNat, Nat.mod_eq_of_lt (by omega)]

/-- A `FILTER` sequence of an idle block is over after `N + 4` steps (R54, R98). -/
theorem run_filter {i : Instr} {s : State} {src dst : Word} {rest : List HostOp} (hb : s.build.wf) (hm : s.mem.wf)
    (hidle : s.blk.busy = false) (hn : i.nulldst = false) (hregions : RegionsOk s.build i.op src.toNat dst.toNat)
    (hsrc : PlainRegion s.build src.toNat ∧ AnsweringRegion s.build src.toNat)
    (hdst : PlainRegion s.build dst.toNat ∧ AnsweringRegion s.build dst.toNat)
    (hp : s.outside.program = opsFILTER i src dst ++ rest) (hs : s.outside.sched = []) :
    ∃ u, run (s.build.pixels + 4) s = .next u ∧ CommandDone i (withBases src dst s) rest u := by
  have hstepSrc : step s = .next (writeSrcBase src (popOp s)) := step_wr hidle hs hp (by decide) (by decide)
  have hp2 : (writeSrcBase src (popOp s)).outside.program =
      opWR .dstBase dst :: opWR .cmd (encode i) :: opPollBusy 0 :: rest := congrArg List.tail hp
  have hstepDst : step (writeSrcBase src (popOp s)) = .next (writeDstBase dst (popOp (writeSrcBase src (popOp s)))) :=
    step_wr (s := writeSrcBase src (popOp s)) hidle hs hp2 (by decide) (by decide)
  have hbases : writeDstBase dst (popOp (writeSrcBase src (popOp s))) = withBases src dst (popOp (popOp s)) := by
    simp only [writeDstBase, writeSrcBase, popOp_build, truncAddr_of_fits hb hregions.srcFits,
      truncAddr_of_fits hb hregions.dstFits]
    rfl
  rw [hbases] at hstepDst
  obtain ⟨t, ht, hd⟩ := run_command (s := withBases src dst (popOp (popOp s))) hb hm hn
    ⟨hidle, hregions, hsrc.1, hdst.1⟩ ⟨hsrc.2, hdst.2⟩ (congrArg List.tail hp2) hs
  have hpoll : step t = .next (popOp t) :=
    step_pollBusy (rest := rest) (by rw [hd.blk]; rfl) (by rw [hd.outside]; exact hs) (by rw [hd.outside])
  refine ⟨popOp t, ?_, hd.blk, hd.build, ?_, hd.memWf, hd.image⟩
  · calc run (s.build.pixels + 4) s
        = run (s.build.pixels + 1 + 1) (withBases src dst (popOp (popOp s))) := by
          rw [run_succ_of_next hstepSrc, run_succ_of_next hstepDst]
      _ = run 1 t := run_add_of_next ht
      _ = .next (popOp t) := run_succ_of_next hpoll 0
  · rw [popOp_outside, hd.outside]
    rfl

/-- Settles O28: the second sequence finds the first image at `B`, and its results depend on that image alone. -/
theorem filterSequencesCompose : Obligations.FilterSequencesCompose := by
  intro i j s a b c rest hb hm hidle hi hj hab hbc hregions hp hs
  simp only [List.forall_mem_cons] at hregions
  obtain ⟨ha, hmid, hc, -⟩ := hregions
  obtain ⟨t, ht, hF⟩ := run_filter hb hm hidle hi hab ha hmid hp hs
  have hbuild : t.build = s.build := hF.build
  obtain ⟨u, hu, hG⟩ := run_filter (s := t) (i := j) (src := b) (dst := c) (rest := rest) (hbuild ▸ hb) hF.memWf
    (by rw [hF.blk]; rfl) hj (hbuild ▸ hbc) (hbuild ▸ hmid) (hbuild ▸ hc)
    (by rw [hF.outside]) (by rw [hF.outside]; exact hs)
  refine ⟨u, ?_, by rw [hG.outside], ?_⟩
  · calc run (2 * s.build.pixels + 8) s
        = run (s.build.pixels + 4 + (t.build.pixels + 4)) s := by rw [hbuild]; congr 1; omega
      _ = run (t.build.pixels + 4) t := run_add_of_next ht
      _ = .next u := hu
  · intro x hx y hy
    have hout := hG.image.inside x (hbuild ▸ hx) y (hbuild ▸ hy)
    rw [show (withBases b c t).build = s.build from hbuild] at hout
    exact hout.trans (pixel_congr j.op j.thresh hx hy hF.image.inside)

end Sys2Proof.Machine
end

section
/-! PROOFS. The command word (R48, R51, R52): decoding and encoding are inverse to each other, the three outcomes of decoding, and
the number of accepted words; and the host's `FILTER` sequence (R54), which starts every command by such a word. -/

namespace Sys2Proof

/-! ### Decoding and encoding -/

/-- The encoder's fields are the decoder's (R48, R51). -/
theorem decode_encode (i : Instr) : decode (encode i) = .command i := by
  rw [encode, Machine.decode_cmdWord, Instr.op_instr]

/-- A word of all 32 bits is read from the opcode table as `decode` reads it (R53). -/
theorem decodeTableWord_toNat {v : Word} {i : Instr} (h : decode v = .command i) : decodeTableWord 32 v.toNat = some i := by
  have hv : BitVec.ofNat 32 (v.toNat % 2 ^ 32) = v := by rw [Nat.mod_eq_of_lt v.isLt, BitVec.ofNat_toNat, BitVec.setWidth_eq]
  rw [decodeTableWord, hv, h]

/-- Settles O1: the word of a command holds its operands in the decoder's fields and no reserved bit. -/
theorem decodeOfEncodeIsTheCommand : Obligations.DecodeOfEncodeIsTheCommand :=
  fun i => ⟨decode_encode i, decodeTableWord_toNat (decode_encode i)⟩

/-! ### The three outcomes of decoding (R51) -/

section outcomes
variable {v : Word}

/-- The first test: a reserved bit is set (R52). -/
theorem decode_of_reserved (h : v &&& reservedMask ≠ 0#32) : decode v = .refused .reserved := if_pos h

/-- The second test: `OP` names no command (R52). -/
theorem decode_of_illegalOp (h : v &&& reservedMask = 0#32) (ho : 8 ≤ (opField v).toNat) :
    decode v = .refused .illegalOp := by
  simp [decode, h, (Op.ofCode_eq_none_iff _).2 ho]

/-- Both tests passed: the command that `OP` names, with the operands of the word. -/
theorem decode_of_op {op : Op} (h : v &&& reservedMask = 0#32) (ho : Op.ofCode (opField v) = some op) :
    decode v = .command (op.instr (nulldstField v) (threshField v)) := by
  simp [decode, h, ho]

/-- A command is decoded from its own word alone (R48, R51). -/
theorem decode_eq_command_iff {i : Instr} : decode v = .command i ↔ encode i = v := by
  constructor
  · intro h
    by_cases hr : v &&& reservedMask = 0#32
    case neg => cases (decode_of_reserved hr).symm.trans h
    cases ho : Op.ofCode (opField v) with
    | none => cases (decode_of_illegalOp hr ((Op.ofCode_eq_none_iff _).1 ho)).symm.trans h
    | some op =>
      cases (decode_of_op hr ho).symm.trans h
      rw [encode, Op.instr_op, Op.instr_nulldst, Op.instr_thresh, Op.code_of_ofCode ho, cmdWord_fields hr]
  · rintro rfl
    exact decode_encode i

end outcomes

/-- Settles O2: one direction of `decode_eq_command_iff`. -/
theorem encodeOfDecodeIsTheWord : Obligations.EncodeOfDecodeIsTheWord := fun _ _ => decode_eq_command_iff.1

/-! ### The number of accepted words -/

/-- The opcode map in the order of the codes (R50). -/
def Op.table : List Op := [.invb, .invc, .bw, .mirr, .blur, .sharp, .sobel, .gray]

theorem Op.table_getElem? (c : BitVec 4) : Op.table[c.toNat]? = Op.ofCode c := by
  revert c; decide

/-- A mnemonic and its place in the opcode map. -/
def Op.tableEquiv : Op ≃ Fin 8 where
  toFun op := ⟨op.code.toNat, by cases op <;> decide⟩
  invFun := Op.table.get
  left_inv op := by cases op <;> rfl
  right_inv k := by revert k; decide

/-- A command is its mnemonic, its `NULLDST` and its `THRESH` (R49). -/
def Instr.fieldsEquiv : Instr ≃ Op × Bool × Byte where
  toFun i := (i.op, i.nulldst, i.thresh)
  invFun f := f.1.instr f.2.1 f.2.2
  left_inv := Instr.op_instr
  right_inv f := by simp

theorem card_instr : Nat.card Instr = 4096 := by
  rw [Nat.card_congr Instr.fieldsEquiv, Nat.card_prod, Nat.card_prod, Nat.card_eq_of_equiv_fin Op.tableEquiv,
    Nat.card_congr BitVec.equivFin.toEquiv]
  simp

theorem encode_injective : Function.Injective encode := fun i j h =>
  Decoded.command.inj ((decode_encode i).symm.trans (h ▸ decode_encode j))

/-- Settles O3: the two tests of `decode` in their order; the accepted words are the words of the 8 · 2 · 256 commands. -/
theorem decodeIsTotalInThreeOutcomes : Obligations.DecodeIsTotalInThreeOutcomes := by
  refine ⟨fun v => ⟨decode_of_reserved, decode_of_illegalOp, ?_⟩, ?_⟩
  · intro hr ho
    obtain ⟨op, hop⟩ := Option.ne_none_iff_exists'.1 (mt (Op.ofCode_eq_none_iff (opField v)).1 ho.not_ge)
    exact ⟨_, decode_of_op hr hop, Op.instr_nulldst _ _ _, Op.instr_thresh _ _ _,
      by rw [Op.instr_op, ← hop]; exact Op.table_getElem? _⟩
  · have haccepted : {v : Word | ∃ i, decode v = .command i} = Set.range encode := by
      ext v
      exact exists_congr fun i => decode_eq_command_iff
    rw [haccepted, Set.ncard_range_of_injective encode_injective, card_instr]

/-- Settles O4: the twelve words evaluated. -/
theorem sampleWordsDecode : Obligations.SampleWordsDecode := by
  unfold Obligations.SampleWordsDecode
  decide

end Sys2Proof

namespace Sys2Proof.Machine

/-- `STATUS` of a command that has completed: `DONE` alone (R20, R55, R58). -/
theorem statusWord_completed (n : Nat) (i : Instr) (s : State) :
    statusWord (completedBlock n (afterAccept i s).blk) = 0x00000002#32 :=
  BitVec.eq_of_toNat_eq (statusWord_toNat _)

/-- Settles O27: `run_filter`, and the registers as `CommandDone` has them. -/
theorem filterSequenceFiltersTheImage : Obligations.FilterSequenceFiltersTheImage := by
  intro i s src dst rest hb hm hidle hn hregions hsrc hdst hsrcAnswers hdstAnswers hp hs
  obtain ⟨u, hu, hd⟩ := run_filter hb hm hidle hn hregions ⟨hsrc, hsrcAnswers⟩ ⟨hdst, hdstAnswers⟩ hp hs
  have hstatus : statusWord u.blk = 0x00000002#32 := by rw [hd.blk, statusWord_completed]
  have hreg {α : Type} (field : Block → α) := congrArg field hd.blk
  exact ⟨u, hu, hd.outside, hd.build, hstatus, hreg Block.cmd, hreg Block.srcBase, hreg Block.dstBase,
    hreg Block.codecPix, hreg Block.codecR, hreg Block.codecG, hreg Block.codecB, hd.image⟩

end Sys2Proof.Machine
end

section
/-! PROOFS. The handling of a `CMD` write (R55 to R57, R82 to R84): what each command and each word does by the state it
meets, and what the write leaves alone; and one step of the engine (R58, R59, R100). -/

namespace Sys2Proof.Machine

/-! ### A command, by what it meets -/

section exec
variable {i : Instr} {s t : State}

/-- The first test: any command is refused while another runs (R55). -/
theorem exec_busy (i : Instr) (hb : s.blk.busy = true) : exec i s = .next (afterBusyRefusal s) := by
  rw [exec_eq_issue, issue_busy hb, raiseError_busy]

/-- A null destination comes before the tests of the regions (R56, R57). -/
theorem exec_null (hb : s.blk.busy = false) (hn : i.nulldst = true) : exec i s = .next (afterNull i s) := by
  rw [exec_eq_issue, hn, issue_null hb, completeNull_latch hn]

/-- Regions that fail a test are refused with that test's code (R56, R83). -/
theorem exec_badRegions {e : ErrCode} (hb : s.blk.busy = false) (hn : i.nulldst = false)
    (he : checkRegions i.op s.build s.blk.srcBase.toNat s.blk.dstBase.toNat = some e) :
    exec i s = .next (afterIdleRefusal (errorCode e) s) := by
  rw [exec_eq_issue, hn, issue_refused hb he, raiseError_clearStatus]

/-- Everything a command can do when it answers a next state: it is the `CMD` write of its own word. -/
theorem exec_cases (h : exec i s = .next t) :
    (s.blk.busy = true ∧ t = afterBusyRefusal s) ∨ (s.blk.busy = false ∧ ∃ e, t = afterIdleRefusal (errorCode e) s) ∨
      (s.blk.busy = false ∧ t = afterNull i s) ∨ (s.blk.busy = false ∧ t = afterAccept i s) := by
  rcases cmdWrite_cases ((cmdWrite_command (decode_encode i) s).trans h) with
    ⟨hb, rfl⟩ | ⟨hb, e, rfl⟩ | ⟨hb, j, hj, hn, rfl⟩ | ⟨hb, j, hj, hn, -, rfl⟩
  · exact .inl ⟨hb, raiseError_busy s⟩
  · exact .inr (.inl ⟨hb, e, raiseError_clearStatus e s⟩)
  all_goals obtain rfl : i = j := Decoded.command.inj ((decode_encode i).symm.trans hj)
  · exact .inr (.inr (.inl ⟨hb, completeNull_latch hn s⟩))
  · exact .inr (.inr (.inr ⟨hb, startEngine_latch hn s⟩))

end exec

/-- Settles O17: `exec_null`. -/
theorem nullDestinationCompletesAtOnce : Obligations.NullDestinationCompletesAtOnce :=
  fun _ _ hn hb => exec_null hb hn

/-- Settles O19: `checkRegions` fails with the code of the first test that does not pass. -/
theorem badRegionsAreRefused : Obligations.BadRegionsAreRefused := by
  intro i s hb hn
  constructor
  · intro hrange
    exact exec_badRegions hb hn (checkRegions_range hrange)
  · intro hsrc hdst h1 h2 hpoint
    exact exec_badRegions hb hn (checkRegions_overlap hsrc hdst h1 h2 hpoint)

/-- Settles O21: each of the four outcomes of `exec_cases` writes out the fields it changes. -/
theorem commandWriteFrame : Obligations.CommandWriteFrame := by
  intro i s t h
  rcases exec_cases h with ⟨hb, rfl⟩ | ⟨hb, e, rfl⟩ | ⟨hb, rfl⟩ | ⟨hb, rfl⟩
  · simp [afterBusyRefusal, hb]
  · simp [afterIdleRefusal, hb]
  · simp [afterNull, hb]
  · simp [afterAccept, hb]

/-! ### A `CMD` write of any word -/

section word
variable {s : State} {v : Word}

/-- While busy every word is refused alike, whatever it decodes to (R55, R84). -/
theorem cmdWrite_busy (v : Word) (hb : s.blk.busy = true) : cmdWrite v s = .next (afterBusyRefusal s) := by
  cases hd : decode v with
  | command i => rw [cmdWrite_command hd, exec_busy i hb]
  | refused e => rw [cmdWrite_refused hd, refuseWord, if_pos hb, raiseError_busy]

/-- A word that names no command is refused with the decoder's code (R56 tests 1 and 2). -/
theorem cmdWrite_idle_refused {e : ErrCode} (hb : s.blk.busy = false) (hd : decode v = .refused e) :
    cmdWrite v s = .next (afterIdleRefusal (errorCode e) s) := by
  rw [cmdWrite_refused hd, refuseWord, hb]
  exact congrArg _ (raiseError_clearStatus e s)

end word

/-- The engine does not look at `ERR` and `ERRCODE`, and leaves them alone (R58). -/
theorem engineStep_afterBusyRefusal (s : State) : engineStep (afterBusyRefusal s) = (engineStep s).map afterBusyRefusal := by
  refine engineStep_congr afterBusyRefusal rfl rfl ⟨rfl, rfl, rfl, rfl, rfl, rfl⟩ ?_
  intro op
  rw [writePixel, writePixel, advance, advance, apply_ite afterBusyRefusal]
  rfl

/-- Settles O18: the busy test comes first for every command and every word, and the engine does not see its refusal. -/
theorem busyRefusalDoesNotDisturbTheRun : Obligations.BusyRefusalDoesNotDisturbTheRun :=
  fun s hb => ⟨fun i => exec_busy i hb, fun v => cmdWrite_busy v hb, engineStep_afterBusyRefusal s⟩

/-! ### The pseudocode of R55, R56 and R57 -/

theorem opField_toNat (v : Word) : (opField v).toNat = v.toNat % 16 := by
  simp [opField]

/-- `POINT` by the codes (R50, R56). -/
theorem isPoint_iff_code (op : Op) :
    op.isPoint = true ↔ op.code.toNat = 0 ∨ op.code.toNat = 1 ∨ op.code.toNat = 2 ∨ op.code.toNat = 7 := by
  cases op <;> decide

/-- Regions in the address space pass where the pseudocode's condition for an overlap does not hold (R56 test 5). -/
theorem regionsOk_of_not_overlap {op : Op} {b : Build} {sb db : Nat} (hsrc : sb + b.pixels ≤ b.space)
    (hdst : db + b.pixels ≤ b.space)
    (hoverlap : ¬((sb < db + b.pixels ∧ db < sb + b.pixels) ∧ ¬(op.isPoint = true ∧ sb = db))) :
    RegionsOk b op sb db where
  srcFits := hsrc
  dstFits := hdst
  apart := by
    by_cases hpoint : op.isPoint = true ∧ sb = db
    · exact .inr (.inr hpoint)
    · have : ¬(sb < db + b.pixels ∧ db < sb + b.pixels) := fun h => hoverlap ⟨h, hpoint⟩
      omega

/-- Settles O6: the tests in the pseudocode's order; a word that passes the first two is `encode i`,
and its fields are those of `i`. -/
theorem commandWriteFollowsThePseudocode : Obligations.CommandWriteFollowsThePseudocode := by
  intro s v
  refine ⟨cmdWrite_busy v, fun hb => ⟨?_, fun hr => ⟨?_, fun ho => ?_⟩⟩⟩
  · intro hr
    exact cmdWrite_idle_refused hb (decode_of_reserved hr)
  · intro ho
    exact cmdWrite_idle_refused hb (decode_of_illegalOp hr (opField_toNat v ▸ ho))
  obtain ⟨-, -, hcommand⟩ := decodeIsTotalInThreeOutcomes.1 v
  obtain ⟨i, hi, hnull, hthresh, -⟩ := hcommand hr (opField_toNat v ▸ ho)
  obtain rfl := decode_eq_command_iff.1 hi
  have hcode : (encode i).extractLsb' 0 4 = i.op.code := opField_cmdWord _ _ _
  have hpoint := isPoint_iff_code i.op
  rw [← hcode, ← opField, opField_toNat] at hpoint
  rw [← hpoint, hcode, ← hnull, ← hthresh, show regWrite 0x00 (encode i) s = exec i s from cmdWrite_command hi s]
  refine ⟨exec_null hb, fun hn => ?_⟩
  obtain ⟨hrange, hoverlap⟩ := badRegionsAreRefused i s hb hn
  refine ⟨hrange, fun hfits => ?_⟩
  obtain ⟨hsrcFits, hdstFits⟩ := (not_or.1 hfits).imp not_lt.1 not_lt.1
  constructor
  · rintro ⟨⟨h1, h2⟩, hp⟩
    exact hoverlap hsrcFits hdstFits h1 h2 hp
  · intro h hsrc hdst
    exact exec_acceptable hn ⟨hb, regionsOk_of_not_overlap hsrcFits hdstFits h, hsrc, hdst⟩

/-! ### The engine's step -/

section pixel
variable {s : State} {op : Op}

/-- Where another agent wrote a byte that the output reads, its value is free (R100, log 5). -/
theorem outputByte_open (h : outputOpen s op = true) : outputByte s op = Config.freeByte s.tick := if_pos h

/-- Where no other agent did, it is the image function's (R59). -/
theorem outputByte_closed (h : outputOpen s op = false) :
    outputByte s op = pixel s.build op s.blk.latThresh (imageAt s.build s.mem s.blk.src.toNat) (nextX s) (nextY s) := by
  rw [outputByte, h]; rfl

end pixel

/-- Settles O22: the step is `writePixel`, whose byte is free or the image function's by `outputOpen`. -/
theorem engineStepWritesOnePixel : Obligations.EngineStepWritesOnePixel := by
  refine fun s => ⟨engineStep_idle, ?_⟩
  intro op hb ho hwf hm hp ha x y reads
  have hopen : outputOpen s op = true ↔ ∃ a ∈ reads, a ∈ s.dirty := by
    rw [outputOpen_iff]
    simp [reads, sourceAddr, x, y, nextX, nextY]
  have hbyte : (writePixel s op).mem.read (s.blk.dst.toNat + s.blk.prog) = outputByte s op := by
    rw [writePixel_mem]
    exact Memory.read_write_same hm _ _
  refine ⟨writePixel s op, engineStep_enabled hb ho (not_stalled op hwf.1.1 hp ha), writePixel_build s op,
    writePixel_outside s op, writePixel_dirty s op, ?_, ?_, ?_, ?_⟩
  · intro a hne
    rw [writePixel_mem]
    exact Memory.read_write_other hm hne _
  · intro hclean
    rw [hbyte]
    refine outputByte_closed (Bool.eq_false_iff.2 fun h => ?_)
    obtain ⟨a, hread, hdirty⟩ := hopen.1 h
    exact hclean a hread hdirty
  · intro hdirty
    rw [hbyte, outputByte_open (hopen.2 hdirty)]
  · rw [writePixel_blk]
    split_ifs with hlast
    · rw [hlast]
    · rfl

end Sys2Proof.Machine
end

section
/-! PROOFS. The codec's laws (R67, R68): encoding then decoding masks each channel, decoding then encoding gives the byte back, and every
legal triple is decoded from some byte. -/

namespace Sys2Proof.Machine

/-- Encoding drops each channel's high bits and nothing else (R67). -/
theorem dec_enc (r g b : Nat) : dec (enc r g b) = (r % 8, g % 8, b % 4) := by
  have hred : chan .red (enc r g b) = r % 8 := by rw [chan_red, enc_toNat]; omega
  have hgreen : chan .green (enc r g b) = g % 8 := by rw [chan_green, enc_toNat]; omega
  have hblue : chan .blue (enc r g b) = b % 4 := by rw [chan_blue, enc_toNat]; omega
  rw [dec, hred, hgreen, hblue]

/-- A byte's channels are in range, so encoding keeps them, and they determine the byte (R68). -/
theorem enc_dec (p : Byte) : enc (dec p).1 (dec p).2.1 (dec p).2.2 = p :=
  byte_ext (chan_enc (v := fun c => chan c p) fun c => chan_le c p)

theorem dec_injective : Function.Injective dec := by
  intro p q h
  rw [← enc_dec p, h, enc_dec]

/-- The decoded triples are the legal ones: a legal triple is decoded from its encoding, which masks nothing (R68). -/
theorem range_dec : Set.range dec = {c | c.1 ≤ 7 ∧ c.2.1 ≤ 7 ∧ c.2.2 ≤ 3} := by
  ext ⟨r, g, b⟩
  constructor
  · rintro ⟨p, hp⟩
    rw [← hp]
    exact ⟨chan_le .red p, chan_le .green p, chan_le .blue p⟩
  · rintro ⟨hr, hg, hb⟩
    refine ⟨enc r g b, ?_⟩
    rw [dec_enc, Nat.mod_eq_of_lt (Nat.lt_succ_of_le hr), Nat.mod_eq_of_lt (Nat.lt_succ_of_le hg),
      Nat.mod_eq_of_lt (Nat.lt_succ_of_le hb)]

/-- Settles O35: `dec_enc`, with the remainders written as masks too, `enc_dec`, and what they say of `dec` as a map. -/
theorem codecRoundTrips : Obligations.CodecRoundTrips := by
  refine ⟨fun r g b => ⟨dec_enc r g b, ?_⟩, enc_dec, dec_injective, range_dec⟩
  rw [dec_enc, and_seven, and_seven, and_three]

end Sys2Proof.Machine
end

section
/-! PROOFS. The point filters and Mirror (R70 to R75): each byte function as arithmetic on the packed byte or its channels, the words,
and the run of each command from its acceptance to its whole image. -/

namespace Sys2Proof.Machine

/-! ### What the commands share -/

/-- The word of a command as a number (R48): its fields do not overlap. -/
theorem encode_toNat (i : Instr) :
    (encode i).toNat = i.op.code.toNat + i.nulldst.toNat * 2 ^ 8 + i.thresh.toNat * 2 ^ 16 := by
  have hcode : (i.op.code.setWidth 32).toNat = i.op.code.toNat := BitVec.toNat_setWidth_of_le (by decide)
  have hnull : ((BitVec.ofBool i.nulldst).setWidth 32).toNat = i.nulldst.toNat := by
    rw [BitVec.toNat_setWidth_of_le (by decide), BitVec.toNat_ofBool]
  have hcodeLt := i.op.code.isLt
  have hnullLe := i.nulldst.toNat_le
  have hthreshLt := i.thresh.isLt
  have hlow : (i.op.code.setWidth 32 ||| (BitVec.ofBool i.nulldst).setWidth 32 <<< 8).toNat =
      i.op.code.toNat + i.nulldst.toNat * 2 ^ 8 := by
    rw [toNat_or_shiftLeft (by omega) (by omega), hcode, hnull]
  rw [encode, cmdWord, toNat_or_shiftLeft (by omega) (by rw [setWidth_toNat]; omega), hlow, setWidth_toNat]

/-- An accepted command whose image function is `F` completes with the image `F` where its regions answer (R46, R55 to R59, R62). -/
theorem accepts_and_completes (i : Instr) {s : State} {F : Image → Nat → Nat → Byte} (hn : i.nulldst = false)
    (hF : pixel s.build i.op i.thresh = F) (hb : s.build.wf) (hm : s.mem.wf) (h : Acceptable i.op s) :
    exec i s = .next (afterAccept i s) ∧ (BasesAnswer s → CompletesWith (afterAccept i s) F) := by
  refine ⟨exec_acceptable hn h, fun ha => ?_⟩
  obtain ⟨u, hu, hw⟩ := engineRun_afterAccept hb hm h ha le_rfl
  have hblk : u.blk = blockAt (afterAccept i s) s.build.pixels :=
    hw.blk.trans (congrArg (blockAt _) (Nat.zero_add _))
  exact ⟨u, hu, hblk.trans (blockAt_pixels _), hw.build, hw.outside, hw.dirty, hF ▸ hw.holdsImage rfl⟩

/-! ### Invert, its two forms -/

theorem invb_toNat (p : Byte) : (invb p).toNat = 255 - p.toNat := by
  rw [invb, BitVec.toNat_ofNat]
  omega

theorem invb_eq_not (p : Byte) : invb p = ~~~p := by
  apply BitVec.eq_of_toNat_eq
  rw [invb_toNat, BitVec.toNat_not]

theorem invb_invb (p : Byte) : invb (invb p) = p := by
  rw [invb_eq_not, invb_eq_not, BitVec.not_not]

/-- Settles O7: INVB is the complement of the byte, written for every pixel by `accepts_and_completes`. -/
theorem invbInvertsTheWholeByte : Obligations.InvbInvertsTheWholeByte :=
  ⟨rfl, rfl, fun p => ⟨invb_toNat p, invb_eq_not p, invb_invb p⟩, rfl,
    fun _ t => accepts_and_completes (.invb false t) rfl rfl⟩

/-- The maxima of the three fields add up to 255, so nothing is borrowed from one field by another (R72). -/
theorem invc_eq_invb (p : Byte) : invc p = invb p := by
  apply BitVec.eq_of_toNat_eq
  rw [invb_toNat, invc, enc_toNat, chan_red, chan_green, chan_blue]
  simp only [Config.maxR, Config.maxG, Config.maxB, Config.rbits, Config.gbits, Config.bbits]
  omega

/-- Each channel against its own maximum: no mask changes a value (R71). -/
theorem dec_invc (p : Byte) : dec (invc p) = (7 - (dec p).1, 7 - (dec p).2.1, 3 - (dec p).2.2) := by
  have hdec := dec_enc (7 - (dec p).1) (7 - (dec p).2.1) (3 - (dec p).2.2)
  rwa [Nat.mod_eq_of_lt (by omega), Nat.mod_eq_of_lt (by omega), Nat.mod_eq_of_lt (by omega)] at hdec

/-- Settles O8: `dec_invc` says that nothing is masked; the involution and the example are those of INVB. -/
theorem invcInvertsEachChannel : Obligations.InvcInvertsEachChannel := by
  have hinvolution : ∀ p : Byte, invc (invc p) = p := fun p => by rw [invc_eq_invb, invc_eq_invb, invb_invb]
  exact ⟨rfl, rfl, fun p => ⟨dec_invc p, hinvolution p⟩, rfl, fun _ t => accepts_and_completes (.invc false t) rfl rfl⟩

/-- Settles O16: `invc_eq_invb`, and words of two mnemonics are two words. -/
theorem invcEqualsInvb : Obligations.InvcEqualsInvb :=
  ⟨invc_eq_invb, fun _ _ h => by cases encode_injective h⟩

/-! ### BlackWhite -/

/-- Settles O9: the word by `encode_toNat`, the image function by the build's comparison. -/
theorem bwComparesTheRawByte : Obligations.BwComparesTheRawByte := by
  have hword (n : Bool) (t : Byte) : (encode (.bw n t)).toNat = 2 + n.toNat * 0x100 + t.toNat * 0x10000 := encode_toNat _
  refine ⟨fun t => ⟨?_, ?_⟩, fun s t hb hm h => ?_⟩
  · rw [hword, Bool.toNat_false, Nat.zero_mul, Nat.add_zero]
  · rw [hword, Bool.toNat_true, Nat.one_mul, Nat.add_right_comm]
  have hrun {F} (hF : pixelBw s.build t = F) := accepts_and_completes (.bw false t) rfl hF hb hm h
  refine ⟨(hrun rfl).1, fun ha hgt => (hrun ?_).2 ha, fun ha hge => (hrun ?_).2 ha⟩
  · funext I x y
    rw [pixelBw, hgt, bw]
  · funext I x y
    rw [pixelBw, hge, bw]

/-! ### Mirror -/

theorem pixelMirr_pixelMirr (b : Build) (I : Image) {x : Nat} (y : Nat) (hx : x < b.width) :
    pixelMirr b (pixelMirr b I) x y = I x y := by
  have hcolumn : b.width - 1 - (b.width - 1 - x) = x := by omega
  rw [pixelMirr, pixelMirr, hcolumn]

/-- Settles O10: MIRR is no point filter, so the overlap test spares no regions, not even equal ones. -/
theorem mirrFlipsEachRow : Obligations.MirrFlipsEachRow := by
  refine ⟨rfl, rfl, fun b I x y hx => pixelMirr_pixelMirr b I y hx, ?_,
    fun _ t => accepts_and_completes (.mirr false t) rfl rfl⟩
  intro s t hb hsrc hdst h1 h2
  have hpoint : Op.mirr.isPoint ≠ true := Bool.false_ne_true
  exact (badRegionsAreRefused (.mirr false t) s hb rfl).2 hsrc hdst h1 h2 fun h => hpoint h.1

/-! ### Grayscale -/

/-- The gray value of a pixel: the channels scaled to red's depth, averaged and clamped (R75). -/
def grayLevel (p : Byte) : Nat := min (((dec p).1 + (dec p).2.1 + 2 * (dec p).2.2) / 3) 7

theorem gray_eq (p : Byte) : gray p = enc (grayLevel p) (grayLevel p) (grayLevel p / 2) := by
  have hlevel : min ((chan .red p + chan .green p <<< 0 + chan .blue p <<< 1) / 3) 7 = grayLevel p := by
    rw [grayLevel, dec, Nat.shiftLeft_zero, Nat.shiftLeft_eq, pow_one, Nat.mul_comm (chan .blue p)]
  rw [← hlevel]
  rfl

/-- The largest sum of the scaled channels is 20, so the clamp never changes a value (R75). -/
theorem grayLevel_le (p : Byte) : grayLevel p ≤ 6 := by
  have hred : (dec p).1 ≤ 7 := chan_le .red p
  have hgreen : (dec p).2.1 ≤ 7 := chan_le .green p
  have hblue : (dec p).2.2 ≤ 3 := chan_le .blue p
  rw [grayLevel]
  omega

/-- The seven outputs are the encodings of the levels 0 to 6 (R75). -/
theorem enc_level_mem : ∀ v ≤ 6, enc v v (v / 2) ∈ [0x00#8, 0x24#8, 0x49#8, 0x6D#8, 0x92#8, 0xB6#8, 0xDB#8] := by
  decide

/-- Settles O11: `gray_eq` for the image function, and the levels it can have. -/
theorem grayAveragesTheChannels : Obligations.GrayAveragesTheChannels := by
  have hpixel : ∀ s : State, ∀ t, pixel s.build .gray t =
      fun I x y => enc (grayLevel (I x y)) (grayLevel (I x y)) (grayLevel (I x y) / 2) := by
    intro s t
    funext I x y
    exact gray_eq (I x y)
  refine ⟨rfl, rfl, fun p => ?_, rfl, rfl, rfl, rfl,
    fun s t => accepts_and_completes (.gray false t) rfl (hpixel s t)⟩
  rw [gray_eq]
  exact enc_level_mem _ (grayLevel_le p)

end Sys2Proof.Machine
end

section
/-! PROOFS. The window filters (R76 to R80): the samples of a window, each kernel as a sum over them, the bounds by which no channel is
masked, an image of one value, and the run of each command from its acceptance to its whole image. -/

namespace Sys2Proof.Machine

/-! ### The samples of a window (R76, R77) -/

/-- A sample is a channel of a pixel, so it is at most the channel's maximum (R63). -/
theorem window_le (b : Build) (I : Image) (c : Chan) (x y i j : Nat) : window b I c x y i j ≤ c.max := chan_le c _

/-- Every sample lies in the image, so in an image of one value all nine are that value's channel. -/
theorem window_uniform {b : Build} {I : Image} {p : Byte} (hb : b.wf) (h : ∀ u < b.width, ∀ v < b.height, I u v = p) (c : Chan)
    (x y i j : Nat) : window b I c x y i j = chan c p := by
  obtain ⟨⟨hW, -⟩, ⟨hH, -⟩, -⟩ := hb
  rw [window, replicated, h _ (clampCoord_lt hW _) _ (clampCoord_lt hH _)]

/-- Where `x + i - 1` and `y + j - 1` are inside the image, the sample is the pixel there. -/
theorem window_inside {b : Build} (I : Image) (c : Chan) {x y i j : Nat} (hx : 1 ≤ x + i) (hxW : x + i ≤ b.width) (hy : 1 ≤ y + j)
    (hyH : y + j ≤ b.height) : window b I c x y i j = chan c (I (x + i - 1) (y + j - 1)) := by
  have hcolumn : (x : Int) + i - 1 = (x + i - 1 : Nat) := by omega
  have hrow : (y : Int) + j - 1 = (y + j - 1 : Nat) := by omega
  rw [window, replicated, hcolumn, hrow, clampCoord_inside (by omega), clampCoord_inside (by omega)]

/-- At a border coordinate `k` with inner neighbour `k'`, the three clamped coordinates are `k` twice and `k'` once. -/
theorem sum_clampCoord_border {n k k' : Nat} (hn : 2 ≤ n) (h : (k = 0 ∧ k' = 1) ∨ (k + 1 = n ∧ k' + 2 = n)) (f : Nat → Nat) :
    f (clampCoord n ((k : Int) + (0 : Nat) - 1)) + f (clampCoord n ((k : Int) + (1 : Nat) - 1)) +
      f (clampCoord n ((k : Int) + (2 : Nat) - 1)) = 2 * f k + f k' := by
  have hmid : clampCoord n ((k : Int) + (1 : Nat) - 1) = k := by unfold clampCoord; omega
  rcases h with hlow | hhigh
  · have hfirst : clampCoord n ((k : Int) + (0 : Nat) - 1) = k := by unfold clampCoord; omega
    have hlast : clampCoord n ((k : Int) + (2 : Nat) - 1) = k' := by unfold clampCoord; omega
    rw [hfirst, hmid, hlast, Nat.two_mul]
  · have hfirst : clampCoord n ((k : Int) + (0 : Nat) - 1) = k' := by unfold clampCoord; omega
    have hlast : clampCoord n ((k : Int) + (2 : Nat) - 1) = k := by unfold clampCoord; omega
    rw [hfirst, hmid, hlast]
    omega

/-! ### The kernels as sums over the window (R77) -/

/-- The nine terms of a convolution. -/
theorem convolve_eq (K : Kernel) (w : Nat → Nat → Nat) : convolve K w =
    kernelAt K 0 0 * w 0 0 + kernelAt K 1 0 * w 1 0 + kernelAt K 2 0 * w 2 0 +
    (kernelAt K 0 1 * w 0 1 + kernelAt K 1 1 * w 1 1 + kernelAt K 2 1 * w 2 1) +
    (kernelAt K 0 2 * w 0 2 + kernelAt K 1 2 * w 1 2 + kernelAt K 2 2 * w 2 2) := by
  simp only [convolve, List.range_succ, List.range_zero, List.nil_append, List.cons_append, List.map_cons, List.map_nil,
    List.sum_cons, List.sum_nil]
  ring

theorem kernelAt_neg (K : Kernel) (i j : Nat) : kernelAt (K.map (·.map (-·))) i j = -kernelAt K i j := by
  have hrow : (K.map (·.map (-·))).getD j [] = (K.getD j []).map (-·) := List.getD_map (f := List.map (-·)) (d := []) ..
  rw [kernelAt, kernelAt, hrow]
  exact List.getD_map (f := (-· : Int → Int)) (d := 0) ..

theorem convolve_neg (K : Kernel) (w : Nat → Nat → Nat) : convolve (K.map (·.map (-·))) w = -convolve K w := by
  simp only [convolve_eq, kernelAt_neg]
  ring

/-- The sum of the nine samples of a window. -/
def windowSum (w : Nat → Nat → Nat) : Nat :=
  w 0 0 + w 1 0 + w 2 0 + w 0 1 + w 1 1 + w 2 1 + w 0 2 + w 1 2 + w 2 2

theorem convolve_blur (w : Nat → Nat → Nat) : convolve kernelBlur w = windowSum w := by
  rw [convolve_eq, windowSum]
  simp only [kernelAt, kernelBlur, List.getD_cons_zero, List.getD_cons_succ]
  omega

theorem convolve_sharp (w : Nat → Nat → Nat) :
    convolve kernelSharp w = 5 * (w 1 1 : Int) - w 1 0 - w 0 1 - w 2 1 - w 1 2 := by
  rw [convolve_eq]
  simp only [kernelAt, kernelSharp, List.getD_cons_zero, List.getD_cons_succ]
  omega

theorem convolve_sobelX (w : Nat → Nat → Nat) :
    convolve kernelSobelX w = ((w 2 0 : Int) + 2 * w 2 1 + w 2 2) - (w 0 0 + 2 * w 0 1 + w 0 2) := by
  rw [convolve_eq]
  simp only [kernelAt, kernelSobelX, List.getD_cons_zero, List.getD_cons_succ]
  omega

theorem convolve_sobelY (w : Nat → Nat → Nat) :
    convolve kernelSobelY w = ((w 0 2 : Int) + 2 * w 1 2 + w 2 2) - (w 0 0 + 2 * w 1 0 + w 2 0) := by
  rw [convolve_eq]
  simp only [kernelAt, kernelSobelY, List.getD_cons_zero, List.getD_cons_succ]
  omega

/-! ### Blur -/

theorem blurChan_eq (b : Build) (I : Image) (x y : Nat) (c : Chan) : blurChan b I x y c = windowSum (window b I c x y) / 9 := by
  rw [blurChan, convolve_blur, Int.toNat_natCast]

/-- Nine samples of at most `MAX_c` have a mean of at most `MAX_c` (R78). -/
theorem blurChan_le (b : Build) (I : Image) (x y : Nat) (c : Chan) : blurChan b I x y c ≤ c.max := by
  have hsample := window_le b I c x y
  have hsum : windowSum (window b I c x y) ≤ 9 * c.max := by
    rw [windowSum]
    linarith [hsample 0 0, hsample 1 0, hsample 2 0, hsample 0 1, hsample 1 1, hsample 2 1,
      hsample 0 2, hsample 1 2, hsample 2 2]
  rw [blurChan_eq]
  omega

/-- No channel of a blurred pixel is masked by the encoding (R78). -/
theorem chan_pixelBlur (b : Build) (I : Image) (x y : Nat) (c : Chan) :
    chan c (pixelBlur b I x y) = windowSum (window b I c x y) / 9 :=
  (chan_enc (blurChan_le b I x y) c).trans (blurChan_eq b I x y c)

/-- The mean of nine equal samples is that sample (R78). -/
theorem pixelBlur_uniform {b : Build} {I : Image} {p : Byte} (hb : b.wf) (h : ∀ u < b.width, ∀ v < b.height, I u v = p)
    (x y : Nat) : pixelBlur b I x y = p := by
  refine byte_ext fun c => ?_
  simp only [chan_pixelBlur, windowSum, window_uniform hb h]
  omega

/-- Settles O12: `chan_pixelBlur` and `pixelBlur_uniform` for the images, `blurChan_eq` for the image function of the run. -/
theorem blurIsTheTruncatedMean : Obligations.BlurIsTheTruncatedMean := by
  refine ⟨rfl, rfl, chan_pixelBlur, fun _ _ _ x y hb h => pixelBlur_uniform hb h x y,
    fun s t => accepts_and_completes (.blur false t) rfl ?_⟩
  funext I x y
  change pixelBlur s.build I x y = _
  rw [pixelBlur, blurChan_eq, blurChan_eq, blurChan_eq]
  rfl

/-- At a corner of the image two columns and two rows of the window fall on the corner's own (R76). -/
theorem windowSum_corner {b : Build} (I : Image) (c : Chan) {x x' y y' : Nat} (hW : 2 ≤ b.width) (hH : 2 ≤ b.height)
    (hx : (x = 0 ∧ x' = 1) ∨ (x + 1 = b.width ∧ x' + 2 = b.width))
    (hy : (y = 0 ∧ y' = 1) ∨ (y + 1 = b.height ∧ y' + 2 = b.height)) :
    windowSum (window b I c x y) = 4 * chan c (I x y) + 2 * chan c (I x' y) + 2 * chan c (I x y') + chan c (I x' y') := by
  have hrow (j : Nat) := sum_clampCoord_border hW hx fun u => chan c (I u (clampCoord b.height ((y : Int) + j - 1)))
  have hcolumn (u : Nat) := sum_clampCoord_border hH hy fun v => chan c (I u v)
  have hrow0 := hrow 0
  have hrow1 := hrow 1
  have hrow2 := hrow 2
  have houter := hcolumn x
  have hinner := hcolumn x'
  simp only [windowSum, window, replicated]
  omega

/-- Settles O15: `window` written out, `window_inside`, and `windowSum_corner` under Blur's division. -/
theorem windowsReplicateTheBorder : Obligations.WindowsReplicateTheBorder := by
  refine ⟨fun _ _ _ _ _ _ _ => rfl, fun _ I c _ _ _ _ => window_inside I c, ?_⟩
  intro b I c x x' y y' hW hH hx hy
  rw [chan_pixelBlur, windowSum_corner I c hW hH hx hy]

/-! ### Sharpen -/

theorem sharpChan_eq (b : Build) (I : Image) (x y : Nat) (c : Chan) : sharpChan b I x y c =
    (min (max (5 * (window b I c x y 1 1 : Int) - window b I c x y 1 0 - window b I c x y 0 1 - window b I c x y 2 1 -
      window b I c x y 1 2) 0) (c.max : Int)).toNat := by
  rw [sharpChan, clampChan, convolve_sharp]

theorem sharpChan_le (b : Build) (I : Image) (x y : Nat) (c : Chan) : sharpChan b I x y c ≤ c.max := by
  rw [sharpChan, clampChan]
  omega

/-- The kernel sums to 1 (R79). -/
theorem pixelSharp_uniform {b : Build} {I : Image} {p : Byte} (hb : b.wf) (h : ∀ u < b.width, ∀ v < b.height, I u v = p)
    (x y : Nat) : pixelSharp b I x y = p := by
  refine byte_ext fun c => (chan_enc (sharpChan_le b I x y) c).trans ?_
  have hmax := chan_le c p
  simp only [sharpChan_eq, window_uniform hb h]
  omega

/-- Settles O13: `pixelSharp_uniform`, and `sharpChan_eq` for the image function of the run. -/
theorem sharpClampsToTheChannel : Obligations.SharpClampsToTheChannel := by
  refine ⟨rfl, rfl, fun _ _ _ x y hb h => pixelSharp_uniform hb h x y,
    fun s t => accepts_and_completes (.sharp false t) rfl ?_⟩
  funext I x y
  change pixelSharp s.build I x y = _
  rw [pixelSharp, sharpChan_eq, sharpChan_eq, sharpChan_eq]
  rfl

/-! ### Sobel -/

/-- Only the absolute value of each gradient counts, and their sum does not depend on their order (R80). -/
theorem sobelMagnitude_neg_left (KX KY : Kernel) (w : Nat → Nat → Nat) :
    sobelMagnitude (KX.map (·.map (-·))) KY w = sobelMagnitude KX KY w := by
  rw [sobelMagnitude, convolve_neg, Int.natAbs_neg, sobelMagnitude]

theorem sobelMagnitude_comm (KX KY : Kernel) (w : Nat → Nat → Nat) : sobelMagnitude KX KY w = sobelMagnitude KY KX w :=
  Nat.add_comm _ _

theorem sobelMagnitude_neg_right (KX KY : Kernel) (w : Nat → Nat → Nat) :
    sobelMagnitude KX (KY.map (·.map (-·))) w = sobelMagnitude KX KY w := by
  rw [sobelMagnitude_comm, sobelMagnitude_neg_left, sobelMagnitude_comm]

/-- Of samples up to `m`, the sum and the difference of the gradients are each twice a sum of three less a sum of three (R80). -/
theorem sobelMagnitude_le {w : Nat → Nat → Nat} {m : Nat} (h : ∀ i j, w i j ≤ m) :
    sobelMagnitude kernelSobelX kernelSobelY w ≤ 6 * m := by
  have h00 := h 0 0
  have h10 := h 1 0
  have h20 := h 2 0
  have h01 := h 0 1
  have h21 := h 2 1
  have h02 := h 0 2
  have h12 := h 1 2
  have h22 := h 2 2
  rw [sobelMagnitude, convolve_sobelX, convolve_sobelY]
  omega

theorem sobelChan_eq_min (b : Build) (I : Image) (x y : Nat) (c : Chan) : sobelChan b I x y c =
    min (sobelMagnitude kernelSobelX kernelSobelY (window b I c x y) / 8) c.max := by
  rw [sobelChan, Config.sobelShift, Nat.shiftRight_eq_div_pow]

/-- The clamp never changes a value: an eighth of `6 * MAX_c` is at most `MAX_c` (R80). -/
theorem sobelChan_eq (b : Build) (I : Image) (x y : Nat) (c : Chan) :
    sobelChan b I x y c = sobelMagnitude kernelSobelX kernelSobelY (window b I c x y) / 8 := by
  have hbound := sobelMagnitude_le (window_le b I c x y)
  rw [sobelChan_eq_min]
  omega

/-- Each kernel sums to 0 (R80). -/
theorem pixelSobel_uniform {b : Build} {I : Image} {p : Byte} (hb : b.wf) (h : ∀ u < b.width, ∀ v < b.height, I u v = p)
    (x y : Nat) : pixelSobel b I x y = 0x00#8 := by
  have hzero (c : Chan) : sobelChan b I x y c = 0 := by
    simp only [sobelChan_eq, sobelMagnitude, convolve_sobelX, convolve_sobelY, window_uniform hb h]
    omega
  rw [pixelSobel, hzero, hzero, hzero]
  rfl

/-- Settles O14: the laws of `sobelMagnitude`, `sobelChan_eq`, and `sobelChan_eq_min` for the image function of the run. -/
theorem sobelIsTheScaledGradient : Obligations.SobelIsTheScaledGradient := by
  refine ⟨rfl, rfl,
    fun w => ⟨sobelMagnitude_neg_left _ _ w, sobelMagnitude_neg_right _ _ w, sobelMagnitude_comm _ _ w⟩,
    fun b I x y c => ⟨sobelMagnitude_le (window_le b I c x y), sobelChan_eq b I x y c⟩,
    fun _ _ _ x y hb h => pixelSobel_uniform hb h x y, fun s t => accepts_and_completes (.sobel false t) rfl ?_⟩
  funext I x y
  change pixelSobel s.build I x y = _
  simp only [pixelSobel, sobelChan_eq_min, sobelMagnitude, convolve_sobelX, convolve_sobelY]
  rfl

end Sys2Proof.Machine
end

section
/-! PROOFS. The state after reset (R89, R96); and the last pixel against a register write of the host, in both orders (R55, R85). -/

namespace Sys2Proof.Machine

/-- Settles O42: reset leaves zeros, which are addresses of every build, and a `CMD` word that decodes to INVB. -/
theorem resetStateMeetsTheInvariant : Obligations.ResetStateMeetsTheInvariant := by
  constructor
  · intro b hb
    exact
      { build := hb
        memWf := ⟨.nil, nofun⟩
        memSpace := nofun
        srcBase := space_pos b
        dstBase := space_pos b
        src := space_pos b
        dst := space_pos b
        noErr := fun _ => rfl
        hasErr := nofun
        command := ⟨.invb false 0#8, decode_encode (.invb false 0#8), rfl, rfl⟩
        prog := Nat.zero_le _
        running := nofun
        dirty := .nil }
  · exact ⟨Config.exampleBuild, by decide, rfl⟩

section lastPixel
variable {s t u : State}

/-! ### The engine's step after a register write -/

/-- A register write while a command runs draws no free value and notes no source write (R100, log 5). -/
theorem regWrite_busy_dirty_tick {off : Nat} {v : Word} (hb : s.blk.busy = true) (h : regWrite off v s = .next t) :
    t.dirty = s.dirty ∧ t.tick = s.tick := by
  rcases regWrite_cases h with ⟨-, h⟩ | rfl | rfl | ⟨-, rfl⟩ | rfl | rfl | rfl
  · rw [cmdWrite_busy v hb] at h
    cases h
    exact ⟨rfl, rfl⟩
  all_goals exact ⟨rfl, rfl⟩

/-- Whether the engine moves, and the memory its step leaves, depend on the run, memory, `dirty` and `tick` alone (R59, R100, log 5). -/
theorem SameRun.engineStep_mem (h : SameRun s t) (hm : t.mem = s.mem) (hd : t.dirty = s.dirty) (ht : t.tick = s.tick)
    (he : engineStep s = some u) : ∃ w, engineStep t = some w ∧ w.mem = u.mem := by
  obtain ⟨hb, op, ho, hstall, rfl⟩ := engineStep_eq_some_iff.1 he
  obtain ⟨hbuild, hbusy, -, hop, hthresh, hsrc, hdst, hprog⟩ := h
  have hstall' : engineStalled t op = engineStalled s op := by
    simp [engineStalled, nextAddr, nextX, nextY, sourceAddr, sourceAnswers, hbuild, hsrc, hdst, hprog, ht]
  have hopen : outputOpen t op = outputOpen s op := by
    simp [outputOpen, nextX, nextY, sourceAddr, hbuild, hsrc, hprog, hd]
  have hbyte : outputByte t op = outputByte s op := by
    rw [outputByte, outputByte, hopen, nextX, nextY, hbuild, hsrc, hprog, hthresh, hm, ht]
    rfl
  refine ⟨writePixel t op, engineStep_enabled (hbusy.trans hb) (hop ▸ ho) (hstall'.trans hstall), ?_⟩
  rw [writePixel_mem, writePixel_mem, hm, hbyte, nextAddr, nextAddr, hdst, hprog]

/-- The engine leaves the build and the other agents alone (R7, R25). -/
theorem engineStep_build_outside (he : engineStep s = some u) : u.build = s.build ∧ u.outside = s.outside := by
  obtain ⟨-, op, -, -, rfl⟩ := engineStep_eq_some_iff.1 he
  exact ⟨writePixel_build s op, writePixel_outside s op⟩

/-- The step of the last pixel ends the command (R58). -/
theorem engineStep_last (hlast : s.blk.prog + 1 = s.build.pixels) (he : engineStep s = some u) :
    u.blk = completedBlock s.build.pixels s.blk := by
  obtain ⟨-, op, -, -, rfl⟩ := engineStep_eq_some_iff.1 he
  rw [writePixel_blk, if_pos hlast, hlast]

/-! ### Two listed turns -/

/-- The listed turn of an enabled engine is its step. -/
theorem step_engine_listed {more : List Turn} (hs : s.outside.sched = .engine :: more) (he : engineStep s = some u) :
    step s = .next (popTurn u) := by
  have hn : nextTurn s = .engine := by simp [nextTurn, hs]
  rw [step, hn, takeTurn, engineTurn, engineStep_popTurn, he]
  rfl

/-- A run of one step is the step. -/
theorem run_one (s : State) : run 1 s = step s := by
  rw [run]
  cases step s <;> rfl

variable {off : Nat} {v : Word} {rest : List HostOp} {more : List Turn}

/-- The host's write comes first: the last pixel then leaves the same memory, and completes the block the write left (R58, R85). -/
theorem run_write_lastPixel (hlast : s.blk.prog + 1 = s.build.pixels) (he : engineStep s = some u)
    (hp : s.outside.program = .wr off v :: rest) (hs : s.outside.sched = .host :: .engine :: more) (ho : off < 64)
    (ha : off % 4 = 0) (hw : regWrite off v (popOp (popTurn s)) = .next t) :
    ∃ w, run 2 s = .next w ∧ w.blk = completedBlock s.build.pixels t.blk ∧ w.mem = u.mem := by
  have hb : s.blk.busy = true := (engineStep_eq_some_iff.1 he).1
  have hwrites : HostWrites s off v := ⟨by simp [nextTurn, hs], rest, .inl hp⟩
  have hstep : step s = .next t := (hwrites.step_eq ho ha).trans hw
  have hrun : SameRun s t := .trans (t := popOp (popTurn s)) (.of_blk rfl rfl) (regWrite_sameRun hb hw)
  obtain ⟨hd, ht⟩ := regWrite_busy_dirty_tick (s := popOp (popTurn s)) hb hw
  obtain ⟨w, hw', hmem⟩ := hrun.engineStep_mem (regWrite_mem (s := popOp (popTurn s)) hw) hd ht he
  have hsched : t.outside.sched = .engine :: more := by rw [step_sched hstep, hs]; rfl
  have hblk := engineStep_last (by rw [hrun.prog, hrun.build]; exact hlast) hw'
  refine ⟨popTurn w, ?_, ?_, hmem⟩
  · rw [run_succ_of_next hstep, run_one, step_engine_listed hsched hw']
  · rw [popTurn_blk, hblk, hrun.build]

/-- The last pixel comes first: the host's write then meets the completed block (R85). -/
theorem run_lastPixel_write (he : engineStep s = some u) (hp : s.outside.program = .wr off v :: rest)
    (hs : s.outside.sched = .engine :: .host :: more) (ho : off < 64) (ha : off % 4 = 0) :
    run 2 s = regWrite off v { u with outside := { s.outside with program := rest, sched := more } } := by
  obtain ⟨-, hout⟩ := engineStep_build_outside he
  have hwrites : HostWrites (popTurn u) off v :=
    ⟨by simp [nextTurn, hout, hs], rest, .inl (by rw [popTurn_outside, hout]; exact hp)⟩
  rw [run_succ_of_next (step_engine_listed hs he), run_one, hwrites.step_eq ho ha, popOp_popTurn]
  simp [popTurn, hout, hp, hs]

end lastPixel

/-- Settles O47: with the host first by `run_write_lastPixel`, with the engine first by `run_lastPixel_write`, whose register write
is an idle one. -/
theorem lastPixelAgainstTheHostInBothOrders : Obligations.LastPixelAgainstTheHostInBothOrders := by
  intro s u rest more hb hlast he
  have hblk := engineStep_last hlast he
  have hidle : u.blk.busy = false := by rw [hblk]; rfl
  refine ⟨fun hp => ⟨fun hs => ?_, fun hs => ?_⟩, fun v hp => ⟨fun hs => ?_, fun hs => ?_⟩, fun i hp hs => ?_⟩
  · obtain ⟨w, hrun, hw, hmem⟩ := run_write_lastPixel hlast he hp hs (by decide) (by decide) rfl
    have hreg {α : Type} (field : Block → α) := congrArg field hw
    exact ⟨w, hrun, hreg Block.done, hreg Block.busy, hmem⟩
  · exact ⟨_, run_lastPixel_write he hp hs (by decide) (by decide), Bool.and_false _, hidle, rfl⟩
  · obtain ⟨w, hrun, hw, hmem⟩ := run_write_lastPixel hlast he hp hs (by decide) (by decide)
      (cmdWrite_busy (s := popOp (popTurn s)) v hb)
    have hreg {α : Type} (field : Block → α) := congrArg field hw
    exact ⟨w, hrun, hreg Block.err, hreg Block.errcode, hreg Block.cmd, hreg Block.done, hreg Block.busy, hmem⟩
  · exact ⟨hidle, by rw [hblk]; rfl, run_lastPixel_write he hp hs (by decide) (by decide)⟩
  have hrun := (run_lastPixel_write he hp hs (by decide) (by decide)).trans (cmdWrite_command (decode_encode i) _)
  constructor
  · intro hn
    exact ⟨_, hrun.trans (exec_null hidle hn), rfl, rfl, rfl, rfl, hidle, rfl⟩
  · intro hn hregions hsrc hdst
    obtain ⟨hbuild, -⟩ := engineStep_build_outside he
    have hacc : Acceptable i.op u :=
      ⟨hidle, by rw [hbuild, hblk]; exact hregions, by rw [hbuild, hblk]; exact hsrc, by rw [hbuild, hblk]; exact hdst⟩
    have haccept := exec_acceptable (s := { u with outside := { s.outside with program := rest, sched := more } }) hn
      ⟨hacc.idle, hacc.regions, hacc.srcPlain, hacc.dstPlain⟩
    exact ⟨_, hrun.trans haccept, rfl, rfl, rfl, rfl, rfl, rfl, rfl, by rw [hblk]; rfl, by rw [hblk]; rfl, rfl, rfl⟩

end Sys2Proof.Machine
end

section
/-! PROOFS. Other agents' writes into a running command's regions (R100), a command over memory with side effects (R101), reset (R96), and
the poll of `DONE` that never ends (R105). -/

namespace Sys2Proof.Machine

/-! ### Another agent's write while a command runs (R100) -/

theorem mem_insertAddr_iff {a x : Nat} {l : List Nat} : x ∈ insertAddr a l ↔ x = a ∨ x ∈ l := by
  refine ⟨mem_insertAddr, ?_⟩
  induction l with
  | nil => simp [insertAddr]
  | cons k l ih =>
    unfold insertAddr
    split_ifs with hlt heq
    · simp
    · simp [heq]
    · simp only [List.mem_cons]
      tauto

theorem inSourceRegion_iff {s : State} {a : Nat} :
    inSourceRegion s a = true ↔ s.blk.src.toNat ≤ a ∧ a < s.blk.src.toNat + s.build.pixels := by
  simp [inSourceRegion]

/-- The addresses noted after another agent's write: a source byte written while busy is added (log 5). -/
theorem mem_storeFromOutside_dirty {s : State} {a c : Nat} {v : Byte} :
    c ∈ (storeFromOutside a v s).dirty ↔
      c ∈ s.dirty ∨ (c = a ∧ s.blk.busy = true ∧ s.blk.src.toNat ≤ a ∧ a < s.blk.src.toNat + s.build.pixels) := by
  rw [storeFromOutside_dirty]
  split_ifs with h
  all_goals rw [Bool.and_eq_true, inSourceRegion_iff] at h
  · rw [mem_insertAddr_iff]
    tauto
  · tauto

/-- Settles O31: the write is `storeFromOutside`, and an output that reads a noted byte is open. -/
theorem sourceWriteOpensDependentOutputs : Obligations.SourceWriteOpensDependentOutputs := by
  constructor
  · intro s a v hm ha hd
    exact ⟨storeFromOutside a v s, guardAccess_plain ha hd _, Memory.read_write_same hm a v,
      fun c hc => Memory.read_write_other hm hc v, rfl, rfl, rfl, rfl, fun c => mem_storeFromOutside_dirty⟩
  · intro s u op hm ho he hread
    obtain ⟨-, op', ho', -, rfl⟩ := engineStep_eq_some_iff.1 he
    obtain rfl : op = op' := Option.some.inj (ho.symm.trans ho')
    have hopen : outputOpen s op = true := (outputOpen_iff s op).2 hread
    rw [writePixel_mem, outputByte_open hopen]
    exact Memory.read_write_same hm _ _

section race
variable {s : State} {op : Op}

/-- Under the invariant a command whose source no other agent has written is undisturbed (R46, R89). -/
theorem MachineInv.undisturbedRun (h : MachineInv s) (hb : s.blk.busy = true) (ho : Op.ofCode s.blk.latOp = some op)
    (hclean : s.dirty = []) : UndisturbedRun op s where
  build := h.build
  memWf := h.memWf
  busy := hb
  latOp := ho
  prog := (h.running hb).prog
  regions := (h.running hb).regionsOk ho
  clean := hclean

/-- A running command on two regions has no byte in both (R56). -/
theorem RegionsOk.dst_not_in_source (h : RegionsOk s.build op s.blk.src.toNat s.blk.dst.toNat) (hne : s.blk.src ≠ s.blk.dst)
    {k : Nat} (hk : k < s.build.pixels) : inSourceRegion s (s.blk.dst.toNat + k) = false := by
  have hbases : s.blk.src.toNat ≠ s.blk.dst.toNat := mt BitVec.eq_of_toNat_eq hne
  have hapart := h.apart
  rw [Bool.eq_false_iff, ne_eq, inSourceRegion_iff]
  omega

variable {a : Nat}

/-- A write of another agent outside the source region leaves the command undisturbed. -/
theorem UndisturbedRun.storeFromOutside (h : UndisturbedRun op s) (ha : inSourceRegion s a = false) (v : Byte) :
    UndisturbedRun op (storeFromOutside a v s) :=
  { h with
    memWf := Memory.write_wf h.memWf a v
    clean := by rw [storeFromOutside_dirty, ha, Bool.and_false]; exact h.clean }

/-- Such a write does not change the command's results, which depend on the source alone (R59). -/
theorem resultAt_storeFromOutside (h : UndisturbedRun op s) (ha : inSourceRegion s a = false) (v : Byte) {j : Nat}
    (hj : j < s.build.pixels) : resultAt op (storeFromOutside a v s) j = resultAt op s j := by
  have hrow : j / s.build.width < s.build.height := Nat.div_lt_of_lt_mul hj
  refine pixel_congr op _ (Nat.mod_lt _ h.build.1.1) hrow fun x hx y hy => Memory.read_write_other h.memWf ?_ v
  intro hread
  exact Bool.eq_false_iff.1 ha (inSourceRegion_iff.2 (hread ▸ pixaddr_inside s.blk.src.toNat hx hy))

end race

/-- Settles O32: the run goes on undisturbed; it keeps the bytes before `prog` and writes its results to the others. -/
theorem destinationWriteIsARace : Obligations.DestinationWriteIsARace := by
  intro s t u op k v hinv hb ho hne hclean hk hwrite hrun
  obtain ⟨-, -, rfl⟩ := guardAccess_eq_next_iff.1 hwrite
  have hs := hinv.undisturbedRun hb ho hclean
  have hapart := hs.regions.dst_not_in_source hne hk
  have hend : s.blk.prog + (s.build.pixels - s.blk.prog) = s.build.pixels := Nat.add_sub_cancel' hs.prog.le
  have hw := engineRun_writes (hs.storeFromOutside hapart v) hend.le hrun
  have hblk : u.blk = completedBlock s.build.pixels s.blk :=
    hw.blk.trans ((congrArg (blockAt _) hend).trans (blockAt_pixels (storeFromOutside _ v s)))
  refine ⟨by rw [hblk]; rfl, by rw [hblk]; rfl, ?_⟩
  split_ifs with hpast
  · exact (hw.kept _ (.inl (Nat.add_lt_add_left hpast _))).trans (Memory.read_write_same hs.memWf _ v)
  · exact (hw.written k (not_lt.1 hpast) (hk.trans_eq hend.symm)).trans (resultAt_storeFromOutside hs hapart v hk)

/-! ### Polling `DONE` (R54, R105) -/

/-- Bit 1 of `STATUS` is `DONE` (R20). -/
theorem fieldValue_statusWord_done (k : Block) : fieldValue (statusWord k) 1 1 = k.done.toNat := by
  have hbusy := k.busy.toNat_lt
  have hdone := k.done.toNat_lt
  rw [fieldValue, statusWord_toNat, Nat.shiftRight_eq_div_pow]
  omega

/-- `POLL STATUS.DONE == 1` stays in front of the program of an idle block where `DONE` is 0. -/
theorem step_pollDone {s : State} {rest : List HostOp} (hb : s.blk.busy = false) (hd : s.blk.done = false)
    (hs : s.outside.sched = []) (hp : s.outside.program = opPollDone 1 :: rest) : step s = .next s := by
  have hfield : fieldValue (regValue s Reg.status.offset) 1 1 ≠ 1 := by
    show fieldValue (statusWord s.blk) 1 1 ≠ 1
    rw [fieldValue_statusWord_done, hd]
    decide
  rw [step_hostOp (nextTurn_idle hb hs) hp, popTurn_of_empty s hs, opPollDone, hostOp,
    guardRegister_of_wf _ (by decide), if_neg hfield]

/-- Settles O40: the poll's step leads back to its state. -/
theorem pollingDoneAfterARefusalSpins : Obligations.PollingDoneAfterARefusalSpins :=
  fun _ _ hb hd hs hp => run_of_fixed (step_pollDone hb hd hs hp)

/-! ### Memory with side effects (R101) -/

/-- A command answers a next state or is refused for a device in its regions (log 10). -/
theorem exec_outcomes (i : Instr) (s : State) :
    (∃ t, exec i s = .next t) ∨
      (s.blk.busy = false ∧ i.nulldst = false ∧ regionsCoverDevice s = true ∧ exec i s = .refused .deviceRegion) := by
  rw [exec_eq_issue]
  rcases issue_cases i.op i.nulldst i.thresh s with
    ⟨-, hi⟩ | ⟨-, -, hi⟩ | ⟨-, -, e, hi⟩ | ⟨hb, hn, -, hd, hi⟩ | ⟨-, -, -, hi⟩
  case inr.inr.inr.inl => exact .inr ⟨hb, hn, hd, hi⟩
  all_goals exact .inl ⟨_, hi⟩

theorem regionsCoverDevice_iff (s : State) : regionsCoverDevice s = true ↔
    ¬(PlainRegion s.build s.blk.srcBase.toNat ∧ PlainRegion s.build s.blk.dstBase.toNat) := by
  rw [← regionsCoverDevice_eq_false_iff, Bool.not_eq_false]

/-- Settles O20: `issue_device` where the checks passed, and `exec_outcomes` for the other directions. -/
theorem onlySideEffectRegionsAreRefused : Obligations.OnlySideEffectRegionsAreRefused := by
  intro i s
  refine ⟨?_, ?_, ?_⟩
  · intro hb hn hregions _ hdevice
    rw [exec_eq_issue, hn]
    exact issue_device hb (checkRegions_eq_none_iff.2 hregions) ((regionsCoverDevice_iff s).2 hdevice)
  · intro f hf
    rcases exec_outcomes i s with ⟨t, h⟩ | ⟨-, -, -, h⟩ <;> cases hf.symm.trans h
  · intro r hr
    rcases exec_outcomes i s with ⟨t, h⟩ | ⟨hb, hn, hd, h⟩ <;> cases hr.symm.trans h
    exact ⟨rfl, hb, hn, (regionsCoverDevice_iff s).1 hd⟩

/-! ### Reset (R96) -/

theorem step_reset {s : State} (hn : nextTurn s = .reset) : step s = .next (resetBlock (popTurn s)) := by
  rw [step, hn, takeTurn]

/-- The words that are put together from fields are 0 where the fields are (R20, R22 to R24). -/
theorem fieldWords_reset : statusWord Block.reset = 0#32 ∧ codecDecWord Block.reset = 0#32 ∧
    codecChWord Block.reset = 0#32 ∧ codecEncWord Block.reset = 0#32 := by decide

/-- Settles O41: the step is `resetBlock`, and each register's word is one of zeros. -/
theorem resetClearsTheBlock : Obligations.ResetClearsTheBlock := by
  intro s hn
  obtain ⟨hstatus, hdec, hch, henc⟩ := fieldWords_reset
  refine ⟨resetBlock (popTurn s), step_reset hn, rfl, rfl, rfl, ?_, rfl, fun _ => rfl⟩
  simp only [List.forall_mem_cons]
  exact ⟨rfl, rfl, rfl, hstatus, rfl, hdec, hch, henc, nofun⟩

end Sys2Proof.Machine
end
